-- ==== Sys2Proof/Word.lean ====
section
/-! DEFINITION. The word types of the core (spec/00_scope.md R7, R9, R10): bytes, 32-bit words, 16-byte blocks,
and the groups of 32-bit registers that hold one 128-bit or 96-bit value. -/

namespace Sys2Proof

/-- One byte. -/
abbrev Byte := BitVec 8

/-- One 32-bit word: every host register and every round key (R8, R33). -/
abbrev Word := BitVec 32

/-- A 16-byte block read as the 128-bit number `int128(B)` of R10: byte 0 is bits 127:120, byte 15 is bits 7:0. -/
abbrev Block := BitVec 128

/-- Four 32-bit registers that hold one 128-bit value, `w0` at the lowest offset (R39): KEY, DIN, DOUT, TAG;
also the word quadruple (A, B, C, D) of the round function (R61). -/
structure Quad where
  w0 : Word
  w1 : Word
  w2 : Word
  w3 : Word
deriving DecidableEq, Repr

/-- Three 32-bit registers that hold one 96-bit value, `w0` at the lowest offset: NONCE (R21). -/
structure Triple where
  w0 : Word
  w1 : Word
  w2 : Word
deriving DecidableEq, Repr

end Sys2Proof
end

