-- ==== Sys2Proof/Config.lean ====
section
/-! DEFINITION. The one parameter that an implementation fixes (spec/00_scope.md R8, decision D5). The spec leaves no
other value open: it has no free value. -/

namespace Sys2Proof

/-- The parameters of one core. `MSG_BUF_BYTES` is open in the spec (R8, D5): State carries it, no step changes it, and a
statement about every state therefore quantifies over it (log entry 1). -/
structure Config where
  /-- MSG_BUF_BYTES: the size of the message buffer BUF in bytes. -/
  msgBufBytes : Nat
deriving DecidableEq, Repr

/-- The default of R8: a message buffer of 4096 bytes. -/
def Config.default : Config := { msgBufBytes := 4096 }

end Sys2Proof
end

