-- ==== Sys2Proof/Machine/Port.lean ====
section
/-! DEFINITION. What crosses the host port (spec/20_memory.md R33 to R36, spec/30_encoding.md R48): transactions, their
answers, the places an offset names, and the inputs the outside world gives the core one at a time (R13, R103, R106). -/

namespace Sys2Proof

/-- HOST_ADDR_BITS = ceil(log2(0x1000 + MSG_BUF_BYTES)) (R8). -/
def Config.hostAddrBits (c : Config) : Nat := Nat.log2 (0x1000 + c.msgBufBytes - 1) + 1

namespace Machine

/-- The direction of a host transaction (R48): dir = 0 is RD, dir = 1 is WR. -/
inductive Dir where
  | rd
  | wr
deriving DecidableEq, Repr

/-- A host transaction (R35, R48). `size` is the 2-bit code of R48 (0 = 1 byte, 1 = 2 bytes, 2 = 4 bytes, 3 reserved).
`off` is a plain number: R48 gives it HOST_ADDR_BITS bits, and V32 and P4 present an offset beyond them and get SLVERR
(log entry 4). -/
structure HostTx where
  dir   : Dir
  off   : Nat
  size  : BitVec 2
  wdata : Word
deriving DecidableEq, Repr

/-- The only supported access: 4 bytes (size code 2) at an offset that is a multiple of 4 (R35, R48). -/
abbrev HostTx.supported (t : HostTx) : Prop := t.size = 2 ∧ t.off % 4 = 0

/-- What the core answers to a host transaction (R35 to R38, R93). -/
inductive Response where
  /-- The error response: the transaction had no effect (R35, R36). -/
  | slvErr
  /-- A supported write was taken: applied, dropped or ignored, as R38 says. -/
  | okay
  /-- A supported read returned this word (R37). -/
  | data (v : Word)
deriving DecidableEq, Repr

/-- The places of the host address map (R34). -/
inductive Target where
  | id
  | status
  | cmd
  | len
  | key (k : Fin 4)
  | nonce (k : Fin 3)
  | din (k : Fin 4)
  | dout (k : Fin 4)
  | tag (k : Fin 4)
  | reserved
  /-- The BUF word that holds bytes 4w to 4w+3 (R40). -/
  | buf (w : Nat)
deriving DecidableEq, Repr

/-- One turn of the interleaving (R13): which agent moves next, and what it does. -/
inductive Input where
  /-- The host issues one transaction (R106). -/
  | host (t : HostTx)
  /-- The engine gets a turn: it runs the pending command if there is one (R108). -/
  | engine
  /-- The external reset input is asserted (R103). -/
  | reset
deriving DecidableEq, Repr

end Machine

end Sys2Proof
end

