-- ==== Sys2Proof/Syntax.lean ====
section
/-! DEFINITION. The command set (spec/00_scope.md R4, spec/opcode_table.json): one constructor per row. -/

namespace Sys2Proof

/-- The six commands. No command has an operand field (R49, R52): every operand comes from a fixed register. -/
inductive Instr where
  /-- NOP (R89). -/
  | nop
  /-- KEYSCHED (R74). -/
  | keysched
  /-- ENCBLK (R65). -/
  | encblk
  /-- DECBLK (R66). -/
  | decblk
  /-- SEAL (R85). -/
  | sealMsg
  /-- OPEN (R86). -/
  | openMsg
deriving DecidableEq, Repr

end Sys2Proof
end

