-- ==== Sys2Proof/WellFormed.lean ====
section
/-! DEFINITION. The checks on the terms a run starts from: parameters (spec/00_scope.md R8), commands (spec/30_encoding.md
R49, R52) and host transactions (spec/20_memory.md R35, spec/30_encoding.md R48). Each is a decidable proposition. -/

namespace Sys2Proof

/-- The legal values of MSG_BUF_BYTES (R8): a multiple of 16 from 16 to 2^24. -/
abbrev Config.wf (c : Config) : Prop :=
  c.msgBufBytes % 16 = 0 ∧ 16 ≤ c.msgBufBytes ∧ c.msgBufBytes ≤ 2 ^ 24

/-- Every command is well-formed: a command word holds no register number and no immediate (R49, R52). -/
abbrev Instr.wf (_i : Instr) : Prop := True

/-- A transaction that the port can carry and the core supports: its offset fits HOST_ADDR_BITS (R35, R48), and it is an
aligned 4-byte access (R35). The machine does not rest on the first part: it answers SLVERR to every offset beyond the map
(R36), those that do not fit included (log entry 4). -/
abbrev Machine.HostTx.wf (c : Config) (t : Machine.HostTx) : Prop := t.off < 2 ^ c.hostAddrBits ∧ t.supported

end Sys2Proof
end

