-- ==== Sys2Proof/Decode.lean ====
section
/-! DEFINITION. Decoding and encoding of the command word (spec/30_encoding.md R49 to R53). The decoder is total on every
32-bit word and rejects by name. There is no byte form: a command reaches the core as one whole 32-bit word (R18, R35,
R53). -/

namespace Sys2Proof

/-- Why a command word is illegal (R51). -/
inductive DecodeReject where
  /-- RSV, bits 31:8, is not zero. -/
  | reservedBitsSet
  /-- OPC, bits 7:0, is 0x06 to 0xFF. -/
  | unknownOpcode
deriving DecidableEq, Repr

/-- OPC, bits 7:0 of a command word (R49). -/
def opcField (w : Word) : BitVec 8 := w.extractLsb' 0 8

/-- RSV, bits 31:8 of a command word (R49). -/
def rsvField (w : Word) : BitVec 24 := w.extractLsb' 8 24

/-- The opcode map (R50). -/
def decodeOpc (opc : Nat) : Except DecodeReject Instr :=
  match opc with
  | 0x00 => .ok .nop
  | 0x01 => .ok .keysched
  | 0x02 => .ok .encblk
  | 0x03 => .ok .decblk
  | 0x04 => .ok .sealMsg
  | 0x05 => .ok .openMsg
  | _ => .error .unknownOpcode

/-- The decoder (R50, R51): a word is legal when RSV = 0 and OPC is in the map. -/
def decode (w : Word) : Except DecodeReject Instr :=
  if rsvField w = 0 then decodeOpc (opcField w).toNat else .error .reservedBitsSet

/-- OPC of a command (R50). -/
def opcOf : Instr → BitVec 8
  | .nop => 0x00
  | .keysched => 0x01
  | .encblk => 0x02
  | .decblk => 0x03
  | .sealMsg => 0x04
  | .openMsg => 0x05

/-- The command word of a command (R49): RSV = 0 above OPC. -/
def encode (i : Instr) : Word := (0 : BitVec 24) ++ opcOf i

/-- The command that the decoder reads from an opcode-table word of `nbits` bits: bit 0 is the least significant bit of
the one 32-bit word, and the bits above `nbits` are 0. -/
def decodeTableWord (nbits w : Nat) : Option Instr :=
  (decode (BitVec.ofNat 32 (w % 2 ^ nbits))).toOption

end Sys2Proof
end

