-- ==== Sys2Proof/Machine/State.lean ====
section
/-! DEFINITION. The state of the core (spec/10_state.md R14), what stops a step, and the state after reset (R31, R103). -/

namespace Sys2Proof.Machine

/-- The message buffer BUF (R30): the WRITTEN bytes, as (index, byte) pairs with strictly rising indices. An index that is
not listed is an unwritten byte, which holds no known value (R47). -/
abbrev Memory := List Host.Cell

/-- The indices of a memory rise strictly from `lo` on. -/
def Memory.risingFrom (lo : Nat) : Memory → Bool
  | [] => true
  | c :: m => decide (lo ≤ c.1) && Memory.risingFrom (c.1 + 1) m

/-- The canonical form: strictly rising indices. An unlisted index has no value, so no entry can equal it. -/
def Memory.wf (m : Memory) : Bool := Memory.risingFrom 0 m

/-- Why a step stops. The spec names these two cases and no other (R47, R96). Both are SAFE: the hardware goes on with
some value, and the model proves nothing of such a run. -/
inductive Fault where
  /-- Raised by a host read, made while BUSY = 0, of a BUF word with an unwritten byte (R47). Safe. -/
  | hostReadUnwritten
  /-- Raised by SEAL and OPEN when a byte of BUF[0..LEN-1] is unwritten (R47). Safe. -/
  | messageUnwritten
deriving DecidableEq, Repr

/-- Why a step has no meaning. -/
inductive Refusal where
  /-- An instruction without a meaning in this model; raised by no arm now, since every command has its meaning. Safe. -/
  | notModelled (mnemonic : String)
deriving DecidableEq, Repr

/-- The state record of R14, and three fields of the model's own (`cfg`, `inputs`, `answers`; log entries 1, 2, 3).
ID is hard-wired (R15): it is the constant `idWord` of the register reads, not a field. -/
structure State where
  /-- The model's own: the parameters of this core (R8). No step changes it. -/
  cfg      : Config
  /-- STATUS.BUSY, bit 0 (R16): a command is pending. -/
  busy     : Bool
  /-- STATUS.KEYVALID, bit 1 (R16, R27): RK holds the schedule of some key. -/
  keyValid : Bool
  /-- STATUS.OVR, bit 2 (R16, R94): a host write was dropped. -/
  ovr      : Bool
  /-- STATUS.ERR, bits 11:8 (R16, R90): the result code of the last completed command. -/
  err      : BitVec 4
  /-- CMD (R18): the last accepted command word. -/
  cmd      : Word
  /-- LEN (R19): the message length in bytes. -/
  len      : Word
  /-- KEY0 to KEY3 (R20). -/
  key      : Quad
  /-- NONCE0 to NONCE2 (R21). -/
  nonce    : Triple
  /-- DIN0 to DIN3 (R22). -/
  din      : Quad
  /-- DOUT0 to DOUT3 (R23). -/
  dout     : Quad
  /-- TAG0 to TAG3 (R24). -/
  tag      : Quad
  /-- RK0 to RK31 (R26), not visible to the host. -/
  rk       : Vector Word 32
  /-- BUF (R30): the written bytes. -/
  buf      : Memory
  /-- The model's own: the turns still to come, next first. At its end the engine runs what is pending (R113). -/
  inputs   : List Input
  /-- The model's own: the answers the host has been given, newest first. No core behaviour reads it. -/
  answers  : List Response
deriving DecidableEq, Repr

/-- Four zero registers. -/
def zeroQuad : Quad := ⟨0, 0, 0, 0⟩

/-- The core with parameters `c` right after reset (R31): every register and flag 0, every BUF byte unwritten, and
nothing that is to come. -/
def State.resetWith (c : Config) : State where
  cfg := c
  busy := false
  keyValid := false
  ovr := false
  err := 0
  cmd := 0
  len := 0
  key := zeroQuad
  nonce := ⟨0, 0, 0⟩
  din := zeroQuad
  dout := zeroQuad
  tag := zeroQuad
  rk := Vector.replicate 32 0
  buf := []
  inputs := []
  answers := []

/-- The machine right after reset, with the default parameters of R8. -/
def State.reset : State := State.resetWith Config.default

end Sys2Proof.Machine
end

