-- ==== Sys2Proof/Machine/Flags.lean ====
section
/-! DEFINITION. STATUS and the result codes (spec/10_state.md R16, R17, R32; spec/60_exceptions.md R90). The core has no
other flag. -/

namespace Sys2Proof.Machine

/-- The named result codes (R90). Codes 0x8 to 0xF are reserved and have no name. -/
inductive ErrCode where
  | ok
  | authFail
  | noKey
  | illegalCmd
  | badLength
  /-- Never raised: the key register is exactly 128 bits. -/
  | invalidKeyLength
  /-- Never raised: the nonce register is exactly 96 bits. -/
  | invalidNonce
  /-- Never raised: the tag register is exactly 128 bits. -/
  | invalidTagLength
deriving DecidableEq, Repr

/-- The four bits of STATUS.ERR for a code (R90). -/
def ErrCode.bits : ErrCode → BitVec 4
  | .ok => 0x0
  | .authFail => 0x1
  | .noKey => 0x2
  | .illegalCmd => 0x3
  | .badLength => 0x4
  | .invalidKeyLength => 0x5
  | .invalidNonce => 0x6
  | .invalidTagLength => 0x7

/-- The STATUS word a host reads (R16): ERR in bits 11:8, OVR in bit 2, KEYVALID in bit 1, BUSY in bit 0, and the reserved
bits 31:12 and 7:3 zero. -/
def statusWord (s : State) : Word :=
  (0 : BitVec 20) ++ s.err ++ (0 : BitVec 5) ++ BitVec.ofBool s.ovr ++ BitVec.ofBool s.keyValid ++ BitVec.ofBool s.busy

/-- A host write of `v` to STATUS (R17): bit 2 of `v` clears OVR, every other bit is ignored. -/
def writeStatus (v : Word) (s : State) : State :=
  { s with ovr := if v.getLsbD 2 then false else s.ovr }

end Sys2Proof.Machine
end

