-- ==== Sys2Proof/Machine/Operands.lean ====
section
/-! DEFINITION. How operands are assembled and results taken apart (spec/00_scope.md R9 to R11, spec/20_memory.md R39 and
R40, spec/30_encoding.md R52): big-endian throughout. -/

namespace Sys2Proof.Machine

/-- `rotl32(x, n)` for 0 <= n < 32 (R11). -/
def rotl32 (x : Word) (n : Nat) : Word := (x <<< n) ||| (x >>> (32 - n))

/-- Byte `j` of a word, j = 0..3: bits 31-8j : 24-8j (R40, R58). -/
def wordByte (w : Word) (j : Nat) : Byte := w.extractLsb' (24 - 8 * j) 8

/-- The word whose bytes are `b0 || b1 || b2 || b3` (R11, R40). -/
def wordOfBytes (b0 b1 b2 b3 : Byte) : Word := b0 ++ b1 ++ b2 ++ b3

/-- `W(B, k)`, the big-endian word `k` of a block, k = 0..3 (R10). -/
def blockWord (b : Block) (k : Nat) : Word := b.extractLsb' (96 - 32 * k) 32

/-- `words(B)` (R10). -/
def words (b : Block) : Quad := ⟨blockWord b 0, blockWord b 1, blockWord b 2, blockWord b 3⟩

/-- `unwords(w0, w1, w2, w3)` (R10): also the value `V` that four registers hold (R39, R52). -/
def unwords (q : Quad) : Block := q.w0 ++ q.w1 ++ q.w2 ++ q.w3

/-- `B[i]`, byte `i` of a block, i = 0..15 (R10). -/
def blockByte (b : Block) (i : Nat) : Byte := b.extractLsb' (120 - 8 * i) 8

/-- The 16 bytes of a block, byte 0 first (R10). -/
def blockBytes (b : Block) : List Byte := (List.range 16).map (blockByte b)

/-- The block with the given bytes at byte positions `i`, `i+1`, ... and zeros elsewhere. -/
def placeBytes (i : Nat) : List Byte → Block
  | [] => 0
  | b :: bs => (b.setWidth 128 <<< (120 - 8 * i)) ||| placeBytes (i + 1) bs

/-- `pad(Y)` for at most 16 bytes (R77): zero bytes on the right up to 16. -/
def padBlock (bs : List Byte) : Block := placeBytes 0 bs

/-- The 12-byte nonce `bytes(NONCE0) || bytes(NONCE1) || bytes(NONCE2)` (R21, R52). -/
def nonceBits (t : Triple) : BitVec 96 := t.w0 ++ t.w1 ++ t.w2

/-- Register `k` of four. -/
def quadGet (q : Quad) (k : Fin 4) : Word :=
  match k with
  | 0 => q.w0
  | 1 => q.w1
  | 2 => q.w2
  | 3 => q.w3

/-- Four registers with register `k` replaced. -/
def quadSet (q : Quad) (k : Fin 4) (v : Word) : Quad :=
  match k with
  | 0 => { q with w0 := v }
  | 1 => { q with w1 := v }
  | 2 => { q with w2 := v }
  | 3 => { q with w3 := v }

/-- Register `k` of three. -/
def tripleGet (q : Triple) (k : Fin 3) : Word :=
  match k with
  | 0 => q.w0
  | 1 => q.w1
  | 2 => q.w2

/-- Three registers with register `k` replaced. -/
def tripleSet (q : Triple) (k : Fin 3) (v : Word) : Triple :=
  match k with
  | 0 => { q with w0 := v }
  | 1 => { q with w1 := v }
  | 2 => { q with w2 := v }

end Sys2Proof.Machine
end

