-- ==== Sys2Proof/Machine/Ops.lean ====
section
/-! DEFINITION. The shared operations of the commands: completing a command with a code (spec/00_scope.md R12,
spec/60_exceptions.md R91, R96: this core's only exception mechanism, with no vector, no saved state and no return), and
reading and writing BUF (R12, R30, R41, R47). -/

namespace Sys2Proof.Machine

/-- The outcome of one step of this machine. -/
abbrev Result := Host.Outcome State Fault Refusal

/-- `complete(code)` (R12): STATUS.ERR <- code; STATUS.BUSY <- 0. -/
def complete (code : ErrCode) (s : State) : State := { s with err := code.bits, busy := false }

/-- `raise Error(code)` (R12, R91, R96): the command completes with its code and nothing else changes. There is no trap:
the outcome is a next state. `s` is the state before the command. -/
def raiseError (code : ErrCode) (s : State) : Result := .next (complete code s)

/-- The byte at index `a` of BUF, or none if it is unwritten (R30). -/
def Memory.read : Memory → Nat → Option Byte
  | [], _ => none
  | c :: m, a => if c.1 = a then some c.2 else Memory.read m a

/-- BUF with byte `a` written (R30), in canonical form. -/
def Memory.write : Memory → Nat → Byte → Memory
  | [], a, b => [(a, b)]
  | c :: m, a, b =>
    if a < c.1 then (a, b) :: c :: m
    else if a = c.1 then (a, b) :: m
    else c :: Memory.write m a b

/-- `MemRead(a, n)` (R12): the bytes at `a` to `a+n-1`, or none if one of them is unwritten (R47). -/
def memRead (m : Memory) (a : Nat) : Nat → Option (List Byte)
  | 0 => some []
  | n + 1 =>
    match m.read a, memRead m (a + 1) n with
    | some b, some bs => some (b :: bs)
    | _, _ => none

/-- `MemWrite(a, n, v)` (R12), with `n` the length of `v`: the bytes of `v` at `a`, `a+1`, .... -/
def memWrite (m : Memory) (a : Nat) : List Byte → Memory
  | [] => m
  | b :: bs => memWrite (m.write a b) (a + 1) bs

/-- The precondition that ENCBLK, DECBLK, SEAL and OPEN check first (R27, R92): a command run with KEYVALID = 0 raises
NO_KEY. -/
def withKey (s : State) (body : Result) : Result :=
  if s.keyValid then body else raiseError .noKey s

/-- The check that SEAL and OPEN make next (R85, R86, R92): LEN > MSG_BUF_BYTES raises BAD_LENGTH. Then the message
`MemRead(0, LEN)`, which faults on an unwritten byte (R47). -/
def withMessage (s : State) (body : List Byte → Result) : Result :=
  if s.len.toNat ≤ s.cfg.msgBufBytes then
    match memRead s.buf 0 s.len.toNat with
    | some msg => body msg
    | none => .fault .messageUnwritten
  else raiseError .badLength s

end Sys2Proof.Machine
end

