-- ==== Sys2Proof/Machine/Cipher.lean ====
section
/-! DEFINITION. The Cipher Primitive (spec/40_cipher_primitive.md R57 to R66): the S-box, the round function, block
encryption and decryption, and the commands ENCBLK and DECBLK. -/

namespace Sys2Proof.Machine

/-- The S-box table of R57, one 16-byte row of the printed table per entry: row `hi`, column `lo` at byte `lo`. -/
def sboxRows : List Block :=
  [0xD690E9FECCE13DB716B614C228FB2C05,
   0x2B679A762ABE04C3AA44132649860699,
   0x9C4250F491EF987A33540B43EDCFAC62,
   0xE4B31CA9C908E89580DF94FA758F3FA6,
   0x4707A7FCF37317BA83593C19E6854FA8,
   0x686B81B27164DA8BF8EB0F4B70569D35,
   0x1E240E5E6358D1A225227C3B01217887,
   0xD40046579FD327524C3602E7A0C4C89E]
  ++
  [0xEABF8AD240C738B5A3F7F2CEF96115A1,
   0xE0AE5DA49B341A55AD933230F58CB1E3,
   0x1DF6E22E8266CA60C02923AB0D534E6F,
   0xD5DB3745DEFD8E2F03FF6A726D6C5B51,
   0x8D1BAF92BBDDBC7F11D95C411F105AD8,
   0x0AC13188A5CD7BBD2D74D012B8E5B4B0,
   0x8969974A0C96777E65B9F109C56EC684,
   0x18F07DEC3ADC4D2079EE5F3ED7CB3948]

/-- `Sbox(16*hi + lo)` (R57): the entry at row hi, column lo. -/
def sbox (x : Byte) : Byte := blockByte (sboxRows.getD (x.toNat / 16) 0) (x.toNat % 16)

/-- `tau` (R58): the S-box on each of the four byte lanes. -/
def tau (a : Word) : Word :=
  wordOfBytes (sbox (wordByte a 0)) (sbox (wordByte a 1)) (sbox (wordByte a 2)) (sbox (wordByte a 3))

/-- The linear diffusion transform `L` (R59). -/
def diffuse (b : Word) : Word := b ^^^ rotl32 b 2 ^^^ rotl32 b 10 ^^^ rotl32 b 18 ^^^ rotl32 b 24

/-- The composite round transform `T(x) = L(tau(x))` (R60). -/
def roundT (x : Word) : Word := diffuse (tau x)

/-- One round (R61): (A, B, C, D) to (B, C, D, A XOR T(B XOR C XOR D XOR rk)). -/
def cipherRound (q : Quad) (rk : Word) : Quad :=
  ⟨q.w1, q.w2, q.w3, q.w0 ^^^ roundT (q.w1 ^^^ q.w2 ^^^ q.w3 ^^^ rk)⟩

/-- The word quadruple in reverse order, (D, C, B, A) (R62). -/
def reverseQuad (q : Quad) : Quad := ⟨q.w3, q.w2, q.w1, q.w0⟩

/-- `SM4Crypt(B, ks)` (R62): one round per round key, then the reversed quadruple. -/
def sm4Crypt (b : Block) (ks : List Word) : Block :=
  unwords (reverseQuad (ks.foldl cipherRound (words b)))

/-- `E(B)` under a round-key file (R63). -/
def encryptBlock (rk : Vector Word 32) (b : Block) : Block := sm4Crypt b rk.toList

/-- `D(B)` under a round-key file (R64): the key order reversed. -/
def decryptBlock (rk : Vector Word 32) (b : Block) : Block := sm4Crypt b rk.toList.reverse

/-- ENCBLK (R65). -/
def execEncblk (s : State) : Result :=
  withKey s (.next (complete .ok { s with dout := words (encryptBlock s.rk (unwords s.din)) }))

/-- DECBLK (R66). -/
def execDecblk (s : State) : Result :=
  withKey s (.next (complete .ok { s with dout := words (decryptBlock s.rk (unwords s.din)) }))

end Sys2Proof.Machine
end

