-- ==== Sys2Proof/Machine/Aead.lean ====
section
/-! DEFINITION. The Authenticated Streaming Mode (spec/42_aead_mode.md R75 to R86): counter blocks, keystream XOR, the
GF(2^128) accumulator, the tag, and the commands SEAL and OPEN. -/

namespace Sys2Proof.Machine

/-- `CounterBlock(N, j) = N || be32((1 + j) mod 2^32)` (R75). -/
def counterBlock (n : BitVec 96) (j : Nat) : Block := n ++ BitVec.ofNat 32 (1 + j)

/-- `inc32(Y)` (R76): the 32-bit increment of bytes 12 to 15, with no carry into byte 11. -/
def inc32 (y : Block) : Block := y.extractLsb' 32 96 ++ (blockWord y 3 + 1)

/-- The number of blocks of `n` bytes, `ceil(n / 16)` (R77). -/
def blockCount (n : Nat) : Nat := (n + 15) / 16

/-- The first `nb` blocks of a byte sequence (R77): 16 bytes each, the last one as many as are left. -/
def takeBlocks (y : List Byte) : Nat → List (List Byte)
  | 0 => []
  | nb + 1 => y.take 16 :: takeBlocks (y.drop 16) nb

/-- The block partition of a byte sequence (R77). -/
def blocksOf (y : List Byte) : List (List Byte) := takeBlocks y (blockCount y.length)

/-- `Z_j = Y_j XOR KS_j[0..m_j-1]` (R78): byte-wise, the unused keystream bytes discarded. -/
def xorPrefix (y : List Byte) (ks : Block) : List Byte := List.zipWith (· ^^^ ·) y (blockBytes ks)

/-- The keystream XOR of the blocks from index `j` on (R78). -/
def xorBlocks (rk : Vector Word 32) (n : BitVec 96) (j : Nat) : List (List Byte) → List Byte
  | [] => []
  | y :: ys => xorPrefix y (encryptBlock rk (counterBlock n j)) ++ xorBlocks rk n (j + 1) ys

/-- `KeystreamXor(N, Y)` (R78). -/
def keystreamXor (rk : Vector Word 32) (n : BitVec 96) (y : List Byte) : List Byte := xorBlocks rk n 0 (blocksOf y)

/-- The reduction constant R of R79. -/
def gfR : Block := 0xE1000000000000000000000000000000

/-- One step of `v` in R79: multiplication by x. -/
def gfShift (v : Block) : Block := if v.getLsbD 0 then (v >>> 1) ^^^ gfR else v >>> 1

/-- The loop of R79 for the iterations i = 128 - n to 127: iteration i looks at bit `127 - i` of `x`. -/
def gfLoop (x : Block) : Nat → Block → Block → Block
  | 0, _, z => z
  | n + 1, v, z => gfLoop x n (gfShift v) (if x.getLsbD n then z ^^^ v else z)

/-- `X • Y`, multiplication in GF(2^128) (R79). -/
def gfMul (x y : Block) : Block := gfLoop x 128 y 0

/-- The hash subkey `H = E(0^128)` (R80). -/
def hashSubkey (rk : Vector Word 32) : Block := encryptBlock rk 0

/-- One fold of the accumulator (R81): `X_{j+1} = (X_j XOR pad(C_j)) • H`. -/
def foldBlock (h x : Block) (c : List Byte) : Block := gfMul (x ^^^ padBlock c) h

/-- The accumulator after every block of `c`, in increasing index, from `X_0 = H` (R81). -/
def accumulate (h : Block) (c : List Byte) : Block := (blocksOf c).foldl (foldBlock h) h

/-- `LenBlock(n) = be64(0) || be64(8n)` (R82). -/
def lenBlock (n : Nat) : Block := (0 : BitVec 64) ++ BitVec.ofNat 64 (8 * n)

/-- `AuthTag(C) = X_nb XOR LenBlock(n)` (R83). -/
def authTag (rk : Vector Word 32) (c : List Byte) : Block := accumulate (hashSubkey rk) c ^^^ lenBlock c.length

/-- `CtEqual(A, B)` (R84): the OR of the 16 byte differences is zero. -/
def ctEqual (a b : Block) : Bool :=
  (List.range 16).foldl (fun d i => d ||| (blockByte a i ^^^ blockByte b i)) (0 : Byte) == 0

/-- SEAL (R85). -/
def execSeal (s : State) : Result :=
  withKey s <| withMessage s fun p =>
    let c := keystreamXor s.rk (nonceBits s.nonce) p
    .next (complete .ok { s with buf := memWrite s.buf 0 c, tag := words (authTag s.rk c) })

/-- OPEN (R86): the tag is verified before anything is decrypted. -/
def execOpen (s : State) : Result :=
  withKey s <| withMessage s fun c =>
    if ctEqual (authTag s.rk c) (unwords s.tag) then
      .next (complete .ok { s with buf := memWrite s.buf 0 (keystreamXor s.rk (nonceBits s.nonce) c) })
    else raiseError .authFail s

end Sys2Proof.Machine
end

