-- ==== Sys2Proof/Machine/KeySchedule.lean ====
section
/-! DEFINITION. The Key Schedule (spec/41_key_schedule.md R69 to R74) and the command KEYSCHED. -/

namespace Sys2Proof.Machine

/-- FK0 to FK3 (R69). -/
def fk : Quad := ⟨0xA3B1BAC6, 0x56AA3350, 0x677D9197, 0xB27022DC⟩

/-- Byte `ck_{i,j} = ((4i + j) * 7) mod 256` (R70). -/
def ckByte (i j : Nat) : Byte := BitVec.ofNat 8 ((4 * i + j) * 7)

/-- `CK_i` for i = 0..31 (R70). -/
def ck (i : Nat) : Word := wordOfBytes (ckByte i 0) (ckByte i 1) (ckByte i 2) (ckByte i 3)

/-- The key-schedule linear transform `L'` (R71), its identity term included (spec/90_conflicts.md C1). -/
def diffuseKey (b : Word) : Word := b ^^^ rotl32 b 13 ^^^ rotl32 b 23

/-- `T'(x) = L'(tau(x))` (R72). -/
def keyT (x : Word) : Word := diffuseKey (tau x)

/-- The initial words `Kw[k] = MK_k XOR FK_k` (R73). -/
def keyStart (k : Block) : Quad :=
  let mk := words k
  ⟨mk.w0 ^^^ fk.w0, mk.w1 ^^^ fk.w1, mk.w2 ^^^ fk.w2, mk.w3 ^^^ fk.w3⟩

/-- The next `n` round keys from round `i` on (R73): `Kw[i+4] = Kw[i] XOR T'(Kw[i+1] XOR Kw[i+2] XOR Kw[i+3] XOR CK_i)`,
where `q` holds Kw[i] to Kw[i+3]. -/
def keyRounds (i : Nat) (q : Quad) : Nat → List Word
  | 0 => []
  | n + 1 =>
    let rk := q.w0 ^^^ keyT (q.w1 ^^^ q.w2 ^^^ q.w3 ^^^ ck i)
    rk :: keyRounds (i + 1) ⟨q.w1, q.w2, q.w3, rk⟩ n

theorem keyRounds_length (n i : Nat) (q : Quad) : (keyRounds i q n).length = n := by
  induction n generalizing i q with
  | zero => rfl
  | succ n ih => simp [keyRounds, ih]

/-- `Schedule(K)` (R73): the 32 round keys in encryption order. -/
def schedule (k : Block) : Vector Word 32 :=
  ⟨(keyRounds 0 (keyStart k) 32).toArray, by simp [keyRounds_length]⟩

/-- KEYSCHED (R74): it always completes with OK. -/
def execKeysched (s : State) : Result :=
  .next (complete .ok { s with rk := schedule (unwords s.key), keyValid := true })

end Sys2Proof.Machine
end

