-- ==== Sys2Proof/Machine/Misc.lean ====
section
/-! DEFINITION. The housekeeping command NOP (spec/43_misc_commands.md R89). -/

namespace Sys2Proof.Machine

/-- NOP (R89): it completes with OK and does nothing else. -/
def execNop (s : State) : Result := .next (complete .ok s)

end Sys2Proof.Machine
end

