-- ==== Sys2Proof/Machine/HostPort.lean ====
section
/-! DEFINITION. The host port (spec/20_memory.md R33 to R42, R47): the address map, reads, writes, and the host step
(spec/70_reset_and_hazards.md R106). -/

namespace Sys2Proof.Machine

/-- ID, hard-wired (R15). -/
def idWord : Word := 0x534D3401

/-- The registers of the map, by word index `off / 4` (R34): offsets 0x000 to 0x05C. -/
def registerAt (i : Nat) : Target :=
  match i with
  | 0x00 => .id
  | 0x01 => .status
  | 0x02 => .cmd
  | 0x03 => .len
  | 0x04 => .key 0
  | 0x05 => .key 1
  | 0x06 => .key 2
  | 0x07 => .key 3
  | 0x08 => .nonce 0
  | 0x09 => .nonce 1
  | 0x0A => .nonce 2
  | 0x0C => .din 0
  | 0x0D => .din 1
  | 0x0E => .din 2
  | 0x0F => .din 3
  | 0x10 => .dout 0
  | 0x11 => .dout 1
  | 0x12 => .dout 2
  | 0x13 => .dout 3
  | 0x14 => .tag 0
  | 0x15 => .tag 1
  | 0x16 => .tag 2
  | 0x17 => .tag 3
  | _ => .reserved

/-- The place an aligned offset names (R34), or none at 0x1000 + MSG_BUF_BYTES and above (R36). -/
def targetAt (c : Config) (off : Nat) : Option Target :=
  if off < 0x1000 then some (registerAt (off / 4))
  else if off < 0x1000 + c.msgBufBytes then some (.buf ((off - 0x1000) / 4))
  else none

/-- The BUF word `w` (R40): bytes 4w to 4w+3, big-endian, or none if one of them is unwritten. -/
def bufWord (m : Memory) (w : Nat) : Option Word :=
  match m.read (4 * w), m.read (4 * w + 1), m.read (4 * w + 2), m.read (4 * w + 3) with
  | some b0, some b1, some b2, some b3 => some (wordOfBytes b0 b1 b2 b3)
  | _, _, _, _ => none

/-- BUF with word `w` written (R40): `BUF[4w+j] <- v[31-8j : 24-8j]` for j = 0..3. -/
def writeBufWord (m : Memory) (w : Nat) (v : Word) : Memory :=
  memWrite m (4 * w) [wordByte v 0, wordByte v 1, wordByte v 2, wordByte v 3]

/-- What a supported read of a place returns (R34, R37), or none where it reads an unwritten byte of BUF (R47). -/
def readTarget (t : Target) (s : State) : Option Word :=
  match t with
  | .id => some idWord
  | .status => some (statusWord s)
  | .cmd => some s.cmd
  | .len => some s.len
  | .key _ => some 0
  | .nonce k => some (tripleGet s.nonce k)
  | .din k => some (quadGet s.din k)
  | .dout k => if s.busy then some 0 else some (quadGet s.dout k)
  | .tag k => if s.busy then some 0 else some (quadGet s.tag k)
  | .reserved => some 0
  | .buf w => if s.busy then some 0 else bufWord s.buf w

/-- A store: applied when BUSY = 0, dropped with OVR <- 1 when BUSY = 1 (R34, R38). -/
def storeIfIdle (s : State) (s' : State) : State := if s.busy then { s with ovr := true } else s'

/-- What a supported write of `v` to a place does (R38). -/
def writeTarget (t : Target) (v : Word) (s : State) : State :=
  match t with
  | .status => writeStatus v s
  | .id => s
  | .dout _ => s
  | .reserved => s
  | .cmd => storeIfIdle s { s with cmd := v, busy := true }
  | .len => storeIfIdle s { s with len := v }
  | .key k => storeIfIdle s { s with key := quadSet s.key k v }
  | .nonce k => storeIfIdle s { s with nonce := tripleSet s.nonce k v }
  | .din k => storeIfIdle s { s with din := quadSet s.din k v }
  | .tag k => storeIfIdle s { s with tag := quadSet s.tag k v }
  | .buf w => storeIfIdle s { s with buf := writeBufWord s.buf w v }

/-- The core answers a transaction (R106). -/
def answer (r : Response) (s : State) : State := { s with answers := r :: s.answers }

/-- The host step (R106): one transaction, answered at once. Unsupported forms and offsets beyond the map get SLVERR and
change nothing (R35, R36). -/
def hostStep (t : HostTx) (s : State) : Result :=
  if t.supported then
    match targetAt s.cfg t.off with
    | none => .next (answer .slvErr s)
    | some p =>
      match t.dir with
      | .wr => .next (answer .okay (writeTarget p t.wdata s))
      | .rd =>
        match readTarget p s with
        | some v => .next (answer (.data v) s)
        | none => .fault .hostReadUnwritten
  else .next (answer .slvErr s)

end Sys2Proof.Machine
end

