-- ==== Sys2Proof/Machine/Engine.lean ====
section
/-! DEFINITION. The engine step and the reset step (spec/70_reset_and_hazards.md R103, R108). -/

namespace Sys2Proof.Machine

/-- The engine step (R108): decode the word in CMD, then run its command, or complete with ILLEGAL_CMD (R51). -/
def engineStep (s : State) : Result :=
  match decode s.cmd with
  | .ok i => exec i s
  | .error _ => raiseError .illegalCmd s

/-- The engine's turn: the engine step is enabled exactly when BUSY = 1 (R28, R108); an idle core does nothing (R102). -/
def engineTurn (s : State) : Result := if s.busy then engineStep s else .next s

/-- The reset step (R103): every piece of the core's state takes its reset value, and a pending command is discarded. What
is outside the core stays: its parameters, the turns to come, and the answers already given. -/
def resetStep (s : State) : State :=
  { State.resetWith s.cfg with inputs := s.inputs, answers := s.answers }

/-- The state with the turns still to come replaced. -/
def withInputs (rest : List Input) (s : State) : State := { s with inputs := rest }

/-- One turn of the interleaving (R13). -/
def takeTurn (i : Input) (s : State) : Result :=
  match i with
  | .host t => hostStep t s
  | .engine => engineTurn s
  | .reset => .next (resetStep s)

/-- `s` with an opcode-table word latched into CMD as an accepted CMD write leaves it (R18), and the engine's turn next. -/
def latchTableWord (s : State) (nbits w : Nat) : State :=
  { s with cmd := BitVec.ofNat 32 (w % 2 ^ nbits), busy := true, inputs := .engine :: s.inputs }

end Sys2Proof.Machine
end

