-- ==== Sys2Proof/Machine/Step.lean ====
section
/-! DEFINITION. One step of the machine (spec/00_scope.md R13): the next turn of the interleaving. -/

namespace Sys2Proof.Machine

/-- One step: the next turn that `inputs` names. When no turn is left, the engine runs what is pending (the fairness of
R113), and an idle core stays as it is (R102, R115). -/
def step (s : State) : Host.Outcome State Fault Refusal :=
  match s.inputs with
  | [] => engineTurn s
  | i :: rest => takeTurn i (withInputs rest s)

/-- `s` with an opcode-table word pending where the engine reads its next command (log entry 5). -/
def State.withFetchWord (s : State) (nbits w : Nat) : State := latchTableWord s nbits w

end Sys2Proof.Machine
end

