-- ==== Sys2Proof/Machine/HostProgram.lean ====
section
/-! DEFINITION. Host programs (spec/30_encoding.md R54 to R56): the transactions that the lines and the
pseudo-instructions of the host syntax stand for. The text syntax itself is outside the core. -/

namespace Sys2Proof.Machine

/-- The byte offset of a place (R34). For `reserved`, the first reserved offset, 0x02C. -/
def Target.offset : Target → Nat
  | .id => 0x000
  | .status => 0x004
  | .cmd => 0x008
  | .len => 0x00C
  | .key k => 0x010 + 4 * k.val
  | .nonce k => 0x020 + 4 * k.val
  | .reserved => 0x02C
  | .din k => 0x030 + 4 * k.val
  | .dout k => 0x040 + 4 * k.val
  | .tag k => 0x050 + 4 * k.val
  | .buf w => 0x1000 + 4 * w

/-- `WR @off, v` (R54). -/
def wrAt (off : Nat) (v : Word) : HostTx := { dir := .wr, off := off, size := 2, wdata := v }

/-- `RD @off` (R54). -/
def rdAt (off : Nat) : HostTx := { dir := .rd, off := off, size := 2, wdata := 0 }

/-- `WR <target>, v` (R54). -/
def wr (t : Target) (v : Word) : HostTx := wrAt t.offset v

/-- `RD <target>` (R54). -/
def rd (t : Target) : HostTx := rdAt t.offset

/-- `WR.1 @off, v` (R54): size code 0. -/
def wrByteAt (off : Nat) (v : Word) : HostTx := { wrAt off v with size := 0 }

/-- `WR.2 @off, v` (R54): size code 1. -/
def wrHalfAt (off : Nat) (v : Word) : HostTx := { wrAt off v with size := 1 }

/-- `RD.1 @off` (R54): size code 0. -/
def rdByteAt (off : Nat) : HostTx := { rdAt off with size := 0 }

/-- `RD.2 @off` (R54): size code 1. -/
def rdHalfAt (off : Nat) : HostTx := { rdAt off with size := 1 }

/-- A command mnemonic (R55): the CMD write of its word. -/
def command (i : Instr) : HostTx := wr .cmd (encode i)

/-- `LDKEY` (R56). -/
def ldKey (k : Block) : List HostTx :=
  [wr (.key 0) (blockWord k 0), wr (.key 1) (blockWord k 1), wr (.key 2) (blockWord k 2), wr (.key 3) (blockWord k 3)]

/-- `LDNONCE` (R56): the three big-endian words of the nonce. -/
def ldNonce (n : BitVec 96) : List HostTx :=
  [wr (.nonce 0) (n.extractLsb' 64 32), wr (.nonce 1) (n.extractLsb' 32 32), wr (.nonce 2) (n.extractLsb' 0 32)]

/-- `LDDIN` (R56). -/
def ldDin (b : Block) : List HostTx :=
  [wr (.din 0) (blockWord b 0), wr (.din 1) (blockWord b 1), wr (.din 2) (blockWord b 2), wr (.din 3) (blockWord b 3)]

/-- `LDTAG` (R56). -/
def ldTag (t : Block) : List HostTx :=
  [wr (.tag 0) (blockWord t 0), wr (.tag 1) (blockWord t 1), wr (.tag 2) (blockWord t 2), wr (.tag 3) (blockWord t 3)]

/-- `LDBUF w, bytes` (R56): one BUF word per four bytes, the last group padded with 0x00 bytes on the right. -/
def ldBuf (w : Nat) : List Byte → List HostTx
  | [] => []
  | [b0] => [wr (.buf w) (wordOfBytes b0 0 0 0)]
  | [b0, b1] => [wr (.buf w) (wordOfBytes b0 b1 0 0)]
  | [b0, b1, b2] => [wr (.buf w) (wordOfBytes b0 b1 b2 0)]
  | b0 :: b1 :: b2 :: b3 :: bs => wr (.buf w) (wordOfBytes b0 b1 b2 b3) :: ldBuf (w + 1) bs

/-- `RDDOUT` (R56). -/
def rdDout : List HostTx := [rd (.dout 0), rd (.dout 1), rd (.dout 2), rd (.dout 3)]

/-- `RDTAG` (R56). -/
def rdTag : List HostTx := [rd (.tag 0), rd (.tag 1), rd (.tag 2), rd (.tag 3)]

/-- `RDBUF w, g` (R56): the words w to w+g-1. -/
def rdBuf (w : Nat) : Nat → List HostTx
  | 0 => []
  | g + 1 => rd (.buf w) :: rdBuf (w + 1) g

/-- One poll of `WAITIDLE` (R56). The branch is in the host. -/
def waitIdlePoll : HostTx := rd .status

/-- The host's branch of `WAITIDLE` (R56): it polls again while bit 0 of the value read is 1. -/
def waitIdleAgain (v : Word) : Bool := v.getLsbD 0

end Sys2Proof.Machine
end

