-- ==== Sys2Proof/Safety.lean ====
section
/-! DEFINITION. The words that claims are stated in: the invariant of the core, runs and their end (spec R13, R115), the
parts of a state that an observer sees, and the rules' own indexed forms of what the machine computes by loops
(spec R34, R38, R62, R73, R78, R81), written from the rules and not from the machine. -/

namespace Sys2Proof.Machine

/-! ### The invariant -/

/-- What every reachable state satisfies (R8, R16, R26, R30, R90). -/
structure State.Inv (s : State) : Prop where
  /-- MSG_BUF_BYTES is a legal value (R8). -/
  cfgLegal : s.cfg.wf
  /-- BUF is in canonical form. -/
  bufCanonical : s.buf.wf = true
  /-- BUF has no byte at or above MSG_BUF_BYTES (R30). -/
  bufInRange : ∀ c ∈ s.buf, c.1 < s.cfg.msgBufBytes
  /-- ERR holds one of the codes 0 to 4 (R90): 5 to 7 are never raised, 8 to 15 are reserved. -/
  errRaised : s.err.toNat ≤ 4
  /-- KEYVALID = 1: RK holds the schedule of some key (R16). -/
  keyed : s.keyValid = true → ∃ k : Block, s.rk = schedule k
  /-- KEYVALID = 0: RK has its reset value (R26, R27). -/
  unkeyed : s.keyValid = false → s.rk = Vector.replicate 32 0

/-! ### Runs -/

/-- `k` steps, stopping at the first fault. -/
def runFor : Nat → State → Result
  | 0, s => .next s
  | k + 1, s =>
    match step s with
    | .next s' => runFor k s'
    | .fault f => .fault f
    | .refused r => .refused r

/-- A run is over: no turn is left and the core is idle (R115). -/
def State.finished (s : State) : Prop := s.inputs = [] ∧ s.busy = false

/-- A run of `k` steps is safe: it reaches no fault and no refusal. -/
def safeFor (k : Nat) (s : State) : Prop := ∃ t, runFor k s = .next t

/-- The next turn is the engine's: the schedule gives it one, or no turn is left (R13, R113). -/
def State.engineNext (s : State) : Prop := s.inputs = [] ∨ ∃ rest, s.inputs = .engine :: rest

/-- The turns after the next one. -/
def State.laterInputs (s : State) : List Input := s.inputs.drop 1

/-! ### Observers -/

/-- An outcome with its next state seen through `f`. -/
def viewed {α : Type} (f : State → α) : Result → Host.Outcome α Fault Refusal
  | .next s => .next (f s)
  | .fault r => .fault r
  | .refused r => .refused r

/-- A state without the secrets that no host read shows: KEY and RK (R20, R26, R98). -/
def hideSecrets (s : State) : State := { s with key := zeroQuad, rk := Vector.replicate 32 0 }

/-! ### The rules' indexed forms -/

/-- The words `X[0], X[1], ...` of R62 from the first four words `q`, where `k i` is the key of round i. -/
def roundWord (q : Quad) (k : Nat → Word) : Nat → Word
  | 0 => q.w0
  | 1 => q.w1
  | 2 => q.w2
  | 3 => q.w3
  | i + 4 => roundWord q k i ^^^
      roundT (roundWord q k (i + 1) ^^^ roundWord q k (i + 2) ^^^ roundWord q k (i + 3) ^^^ k i)

/-- The words `Kw[0], Kw[1], ...` of R73 for the key words `mk`. -/
def keyWord (mk : Quad) : Nat → Word
  | 0 => mk.w0 ^^^ 0xA3B1BAC6
  | 1 => mk.w1 ^^^ 0x56AA3350
  | 2 => mk.w2 ^^^ 0x677D9197
  | 3 => mk.w3 ^^^ 0xB27022DC
  | i + 4 => keyWord mk i ^^^
      keyT (keyWord mk (i + 1) ^^^ keyWord mk (i + 2) ^^^ keyWord mk (i + 3) ^^^ ck i)

/-- The keystream byte for message byte `i` (R78): byte `i mod 16` of E(CounterBlock(N, i / 16)). -/
def keystreamByte (rk : Vector Word 32) (n : BitVec 96) (i : Nat) : Byte :=
  blockByte (encryptBlock rk (n ++ BitVec.ofNat 32 (1 + i / 16))) (i % 16)

/-- `pad(C_j)` (R77) for the `n`-byte message with bytes `c 0`, ..., `c (n-1)`. -/
def messageBlock (c : Nat → Byte) (n j : Nat) : Block :=
  padBlock ((List.range 16).map fun i => if 16 * j + i < n then c (16 * j + i) else 0)

/-- The accumulator `X_j` of R81 under the hash subkey `h`. -/
def accumulatorAt (h : Block) (c : Nat → Byte) (n : Nat) : Nat → Block
  | 0 => h
  | j + 1 => gfMul (accumulatorAt h c n j ^^^ messageBlock c n j) h

/-- `AuthTag(C)` of R83 for the `n`-byte message `c`: the accumulator after the ceil(n/16) blocks, XOR the length in bits
as a 128-bit big-endian number (R82). -/
def tagOf (rk : Vector Word 32) (c : Nat → Byte) (n : Nat) : Block :=
  accumulatorAt (encryptBlock rk 0) c n ((n + 15) / 16) ^^^ BitVec.ofNat 128 (8 * n)

/-- The two read columns of R34 for the register offsets below 0x1000. -/
def registerRead (s : State) (off : Nat) : Word :=
  if off = 0x000 then 0x534D3401
  else if off = 0x004 then statusWord s
  else if off = 0x008 then s.cmd
  else if off = 0x00C then s.len
  else if off = 0x020 then s.nonce.w0
  else if off = 0x024 then s.nonce.w1
  else if off = 0x028 then s.nonce.w2
  else if off = 0x030 then s.din.w0
  else if off = 0x034 then s.din.w1
  else if off = 0x038 then s.din.w2
  else if off = 0x03C then s.din.w3
  else if s.busy then 0
  else if off = 0x040 then s.dout.w0
  else if off = 0x044 then s.dout.w1
  else if off = 0x048 then s.dout.w2
  else if off = 0x04C then s.dout.w3
  else if off = 0x050 then s.tag.w0
  else if off = 0x054 then s.tag.w1
  else if off = 0x058 then s.tag.w2
  else if off = 0x05C then s.tag.w3
  else 0

/-- The write column of R34, in the order of R38, for the register offsets below 0x1000. -/
def registerWrite (off : Nat) (v : Word) (s : State) : State :=
  if off = 0x004 then { s with ovr := s.ovr && !v.getLsbD 2 }
  else if off = 0x000 ∨ off = 0x02C ∨ (0x040 ≤ off ∧ off ≤ 0x04C) ∨ 0x060 ≤ off then s
  else if s.busy then { s with ovr := true }
  else if off = 0x008 then { s with cmd := v, busy := true }
  else if off = 0x00C then { s with len := v }
  else if off = 0x010 then { s with key := { s.key with w0 := v } }
  else if off = 0x014 then { s with key := { s.key with w1 := v } }
  else if off = 0x018 then { s with key := { s.key with w2 := v } }
  else if off = 0x01C then { s with key := { s.key with w3 := v } }
  else if off = 0x020 then { s with nonce := { s.nonce with w0 := v } }
  else if off = 0x024 then { s with nonce := { s.nonce with w1 := v } }
  else if off = 0x028 then { s with nonce := { s.nonce with w2 := v } }
  else if off = 0x030 then { s with din := { s.din with w0 := v } }
  else if off = 0x034 then { s with din := { s.din with w1 := v } }
  else if off = 0x038 then { s with din := { s.din with w2 := v } }
  else if off = 0x03C then { s with din := { s.din with w3 := v } }
  else if off = 0x050 then { s with tag := { s.tag with w0 := v } }
  else if off = 0x054 then { s with tag := { s.tag with w1 := v } }
  else if off = 0x058 then { s with tag := { s.tag with w2 := v } }
  else { s with tag := { s.tag with w3 := v } }

end Sys2Proof.Machine
end

