-- ==== Sys2Proof/Certificates/Slice0/Obligations.lean ====
section
/-! DEFINITION. The statements for the provers. Each formalises rules of the spec; where it rests on a choice of the model
(the schedule in `inputs`, log entry 2; the answers list, log entry 3), its docstring says so. -/

open Sys2Proof Sys2Proof.Machine

/-! ### Encoding -/

/-- The six command words of the opcode map, written out (R50). -/
def Obligations.OpcodeMapWordsDecode : Prop :=
  decode 0x00000000 = .ok .nop ∧ decode 0x00000001 = .ok .keysched ∧ decode 0x00000002 = .ok .encblk ∧
  decode 0x00000003 = .ok .decblk ∧ decode 0x00000004 = .ok .sealMsg ∧ decode 0x00000005 = .ok .openMsg

/-- Decode and encode agree in both directions, for every word and every command (R49, R50): a word decodes to a command
exactly when it is that command's word. -/
def Obligations.DecodeAndEncodeAgree : Prop :=
  ∀ (w : Word) (i : Instr), decode w = .ok i ↔ w = encode i

/-- The illegal words are exactly those with a reserved bit set and those with OPC in 0x06 to 0xFF (R51), and each is
rejected under its name. -/
def Obligations.IllegalWordsAreRejected : Prop :=
  ∀ w : Word,
    (decode w = .error .reservedBitsSet ↔ 0x100 ≤ w.toNat) ∧
    (decode w = .error .unknownOpcode ↔ 0x06 ≤ w.toNat ∧ w.toNat ≤ 0xFF)

/-! ### The engine step -/

/-- A step runs the decoded command (R108): when the engine has the turn and BUSY = 1, the step is the engine step at the
state with that turn taken, and so `exec` of the command that CMD decodes to. The schedule is the model's (log entry 2). -/
def Obligations.StepRunsTheDecodedCommand : Prop :=
  ∀ s : State, s.engineNext → s.busy = true →
    step s = engineStep { s with inputs := s.laterInputs } ∧
    ∀ i : Instr, decode s.cmd = .ok i → step s = exec i { s with inputs := s.laterInputs }

/-- An illegal word completes with ERR = ILLEGAL_CMD and no other effect (R51), KEYVALID = 0 included (R92). -/
def Obligations.IllegalWordCompletesWithIllegalCmd : Prop :=
  ∀ s : State, s.engineNext → s.busy = true → 0x06 ≤ s.cmd.toNat →
    step s = .next { s with inputs := s.laterInputs, err := 0x3, busy := false }

/-- No engine step is enabled when BUSY = 0 (R28, R108): the engine's turn then changes nothing. That the turn passes, and
that a run which is over stays as it is, are the model's choice (log entries 2 and 8). -/
def Obligations.EngineIsDisabledWhileIdle : Prop :=
  ∀ s : State, s.engineNext → s.busy = false → step s = .next { s with inputs := s.laterInputs }

/-- The codes of R90 and their causes: a completed command leaves BUSY = 0 and one of the codes 0 to 4 in ERR, and it leaves
each of the error codes exactly when the rule's cause holds of the state before. -/
def Obligations.EveryCodeHasItsCause : Prop :=
  ∀ s t : State, engineStep s = .next t →
    t.busy = false ∧ t.err.toNat ≤ 4 ∧
    (t.err = 0x3 ↔ 0x06 ≤ s.cmd.toNat) ∧
    (t.err = 0x2 ↔ 0x02 ≤ s.cmd.toNat ∧ s.cmd.toNat ≤ 0x05 ∧ s.keyValid = false) ∧
    (t.err = 0x4 ↔ (s.cmd = 0x00000004 ∨ s.cmd = 0x00000005) ∧ s.keyValid = true ∧ s.cfg.msgBufBytes < s.len.toNat) ∧
    (t.err = 0x1 ↔ s.cmd = 0x00000005 ∧ s.keyValid = true ∧ s.len.toNat ≤ s.cfg.msgBufBytes ∧
      ∃ c : Nat → Byte, (∀ i, i < s.len.toNat → s.buf.read i = some (c i)) ∧
        unwords s.tag ≠ tagOf s.rk c s.len.toNat)

/-- A command that ends with an error, an illegal word included, writes ERR and BUSY and nothing else (R91). -/
def Obligations.ErrorCompletionHasNoOtherEffect : Prop :=
  ∀ s t : State, engineStep s = .next t → t.err ≠ 0x0 → t = { s with err := t.err, busy := false }

/-- The order of the checks (R92): ILLEGAL_CMD, then NO_KEY, then BAD_LENGTH (SEAL and OPEN), then AUTH_FAIL (OPEN), for the
word in CMD: each is reported when none of those before it applies, whatever the later ones would say. -/
def Obligations.ErrorPriority : Prop :=
  ∀ s : State,
    (0x06 ≤ s.cmd.toNat → ∃ t, engineStep s = .next t ∧ t.err = 0x3) ∧
    (0x02 ≤ s.cmd.toNat → s.cmd.toNat ≤ 0x05 → s.keyValid = false → ∃ t, engineStep s = .next t ∧ t.err = 0x2) ∧
    (0x04 ≤ s.cmd.toNat → s.cmd.toNat ≤ 0x05 → s.keyValid = true → s.cfg.msgBufBytes < s.len.toNat →
      ∃ t, engineStep s = .next t ∧ t.err = 0x4) ∧
    (∀ c : Nat → Byte, s.cmd.toNat = 0x05 → s.keyValid = true → s.len.toNat ≤ s.cfg.msgBufBytes →
      (∀ i, i < s.len.toNat → s.buf.read i = some (c i)) → unwords s.tag ≠ tagOf s.rk c s.len.toNat →
      ∃ t, engineStep s = .next t ∧ t.err = 0x1)

/-! ### The commands -/

/-- NOP completes with OK and does nothing else (R89). -/
def Obligations.NopCompletes : Prop :=
  ∀ s : State, exec .nop s = .next { s with err := 0x0, busy := false }

/-- KEYSCHED writes the 32 words of R73 to RK, sets KEYVALID and completes with OK (R74). -/
def Obligations.KeyschedWritesTheSchedule : Prop :=
  ∀ s : State, exec .keysched s = .next { s with
    rk := Vector.ofFn fun i => keyWord s.key (i.val + 4), keyValid := true, err := 0x0, busy := false }

/-- ENCBLK writes the words X[35], X[34], X[33], X[32] of R62, round i under RK[i] (R63), to DOUT0..3 (R65). -/
def Obligations.EncblkWritesTheCiphertext : Prop :=
  ∀ s : State, s.keyValid = true →
    let x := roundWord s.din fun i => s.rk.toList.getD i 0
    exec .encblk s = .next { s with dout := ⟨x 35, x 34, x 33, x 32⟩, err := 0x0, busy := false }

/-- DECBLK does the same with round i under RK[31-i] (R64, R66). -/
def Obligations.DecblkWritesThePlaintext : Prop :=
  ∀ s : State, s.keyValid = true →
    let x := roundWord s.din fun i => s.rk.toList.getD (31 - i) 0
    exec .decblk s = .next { s with dout := ⟨x 35, x 34, x 33, x 32⟩, err := 0x0, busy := false }

/-- SEAL of a written message (R85): BUF[0..LEN-1] becomes the message XOR the keystream (R78), every other byte of BUF is
as before (R41), TAG becomes the tag of the new bytes (R81, R83), and the command completes with OK. -/
def Obligations.SealEncryptsAndAuthenticates : Prop :=
  ∀ (s : State) (p : Nat → Byte), s.keyValid = true → s.len.toNat ≤ s.cfg.msgBufBytes →
    (∀ i, i < s.len.toNat → s.buf.read i = some (p i)) →
    let c := fun i => p i ^^^ keystreamByte s.rk (nonceBits s.nonce) i
    ∃ m : Memory,
      exec .sealMsg s = .next { s with
        buf := m, tag := words (tagOf s.rk c s.len.toNat), err := 0x0, busy := false } ∧
      (∀ i, i < s.len.toNat → m.read i = some (c i)) ∧
      (∀ a, s.len.toNat ≤ a → m.read a = s.buf.read a)

/-- OPEN of a message whose tag is the one in TAG (R86): BUF[0..LEN-1] becomes the message XOR the keystream, every other
byte of BUF is as before, and the command completes with OK. -/
def Obligations.OpenDecryptsWhenTheTagMatches : Prop :=
  ∀ (s : State) (c : Nat → Byte), s.keyValid = true → s.len.toNat ≤ s.cfg.msgBufBytes →
    (∀ i, i < s.len.toNat → s.buf.read i = some (c i)) →
    unwords s.tag = tagOf s.rk c s.len.toNat →
    ∃ m : Memory,
      exec .openMsg s = .next { s with buf := m, err := 0x0, busy := false } ∧
      (∀ i, i < s.len.toNat → m.read i = some (c i ^^^ keystreamByte s.rk (nonceBits s.nonce) i)) ∧
      (∀ a, s.len.toNat ≤ a → m.read a = s.buf.read a)

/-- OPEN of a message whose tag is not the one in TAG completes with AUTH_FAIL, and BUF, TAG and DOUT are unchanged (R86). -/
def Obligations.OpenRejectsAWrongTag : Prop :=
  ∀ (s : State) (c : Nat → Byte), s.keyValid = true → s.len.toNat ≤ s.cfg.msgBufBytes →
    (∀ i, i < s.len.toNat → s.buf.read i = some (c i)) →
    unwords s.tag ≠ tagOf s.rk c s.len.toNat →
    exec .openMsg s = .next { s with err := 0x1, busy := false }

/-- ENCBLK, DECBLK, SEAL and OPEN complete with NO_KEY and no other effect while KEYVALID = 0 (R27). -/
def Obligations.CipherCommandsNeedAKey : Prop :=
  ∀ (i : Instr) (s : State), i ≠ .nop → i ≠ .keysched → s.keyValid = false →
    exec i s = .next { s with err := 0x2, busy := false }

/-- SEAL and OPEN with LEN > MSG_BUF_BYTES complete with BAD_LENGTH and no other effect (R85, R86, R19). -/
def Obligations.MessageCommandsRejectABadLength : Prop :=
  ∀ s : State, s.keyValid = true → s.cfg.msgBufBytes < s.len.toNat →
    exec .sealMsg s = .next { s with err := 0x4, busy := false } ∧
    exec .openMsg s = .next { s with err := 0x4, busy := false }

/-- SEAL and OPEN fault exactly when they reach a message with an unwritten byte (R47). -/
def Obligations.MessageCommandsFaultOnUnwrittenBytes : Prop :=
  ∀ (s : State) (i : Instr), i = .sealMsg ∨ i = .openMsg →
    (exec i s = .fault .messageUnwritten ↔
      s.keyValid = true ∧ s.len.toNat ≤ s.cfg.msgBufBytes ∧ ∃ a, a < s.len.toNat ∧ s.buf.read a = none)

/-- The frame of the four commands that store nothing: NOP, KEYSCHED, ENCBLK, DECBLK (R89, R74, R65, R66). RK and KEYVALID
belong to KEYSCHED, DOUT to ENCBLK and DECBLK. -/
def Obligations.RegisterCommandsFrame : Prop :=
  ∀ (i : Instr) (s t : State), i ≠ .sealMsg → i ≠ .openMsg → exec i s = .next t →
    (∀ a, t.buf.read a = s.buf.read a) ∧ t.tag = s.tag ∧
    (i ≠ .keysched → t.rk = s.rk ∧ t.keyValid = s.keyValid) ∧
    (i ≠ .encblk → i ≠ .decblk → t.dout = s.dout) ∧
    t.ovr = s.ovr ∧ t.cmd = s.cmd ∧ t.len = s.len ∧ t.key = s.key ∧ t.nonce = s.nonce ∧ t.din = s.din ∧
    t.cfg = s.cfg ∧ t.inputs = s.inputs ∧ t.answers = s.answers

/-- The frame of SEAL and OPEN (R41, R85, R86): every byte of BUF outside [0, LEN) reads as before, and of the registers
only TAG (SEAL), ERR and BUSY may change. -/
def Obligations.MessageCommandsFrame : Prop :=
  ∀ (i : Instr) (s t : State), i = .sealMsg ∨ i = .openMsg → exec i s = .next t →
    (∀ a, s.len.toNat ≤ a → t.buf.read a = s.buf.read a) ∧
    (i = .openMsg → t.tag = s.tag) ∧
    t.rk = s.rk ∧ t.keyValid = s.keyValid ∧ t.dout = s.dout ∧
    t.ovr = s.ovr ∧ t.cmd = s.cmd ∧ t.len = s.len ∧ t.key = s.key ∧ t.nonce = s.nonce ∧ t.din = s.din ∧
    t.cfg = s.cfg ∧ t.inputs = s.inputs ∧ t.answers = s.answers

/-! ### The cipher and the mode -/

/-- The S-box is a permutation of 0..255, with the four entries that R57 names. -/
def Obligations.SboxIsAPermutation : Prop :=
  (∀ x y : Byte, sbox x = sbox y → x = y) ∧
  sbox 0x00 = 0xD6 ∧ sbox 0x01 = 0x90 ∧ sbox 0xEF = 0x84 ∧ sbox 0xFF = 0x48

/-- tau substitutes each of the four byte lanes of a word by itself; with the rule's example (R58). -/
def Obligations.TauSubstitutesEachLane : Prop :=
  (∀ (a : Word) (j : Nat), j < 4 → (tau a).extractLsb' (8 * j) 8 = sbox (a.extractLsb' (8 * j) 8)) ∧
  tau 0x00000001 = 0xD6D6D690

/-- Each bit of L(b) and of L'(b) is the XOR of the bits that the rotations name: rotl by n brings bit i-n to bit i. L is
linear over XOR. With the rules' examples. All of it is derived from the definitions of R59 and R71. -/
def Obligations.DiffusionBits : Prop :=
  (∀ (b : Word) (i : Nat), i < 32 →
    (diffuse b).getLsbD i = (b.getLsbD i ^^ b.getLsbD ((i + 30) % 32) ^^ b.getLsbD ((i + 22) % 32) ^^
      b.getLsbD ((i + 14) % 32) ^^ b.getLsbD ((i + 8) % 32)) ∧
    (diffuseKey b).getLsbD i = (b.getLsbD i ^^ b.getLsbD ((i + 19) % 32) ^^ b.getLsbD ((i + 9) % 32))) ∧
  (∀ a b : Word, diffuse (a ^^^ b) = diffuse a ^^^ diffuse b) ∧ diffuse 0 = 0 ∧
  diffuse 0x00000001 = 0x01040405 ∧ diffuse 0xFFFFFFFF = 0xFFFFFFFF ∧
  diffuseKey 0x00000001 = 0x00802001 ∧ diffuseKey 0xFFFFFFFF = 0xFFFFFFFF

/-- Decryption undoes encryption and the other way round, under any round keys; so does DECBLK after ENCBLK on its result,
and ENCBLK after DECBLK. Derived from R61 to R66, as R67 is. -/
def Obligations.CipherRoundTrip : Prop :=
  (∀ (rk : Vector Word 32) (b : Block), decryptBlock rk (encryptBlock rk b) = b ∧ encryptBlock rk (decryptBlock rk b) = b) ∧
  ∀ s : State, s.keyValid = true →
    (∃ t u, exec .encblk s = .next t ∧ exec .decblk { t with din := t.dout, busy := true } = .next u ∧
      u.dout = s.din ∧ u.err = 0x0) ∧
    (∃ t u, exec .decblk s = .next t ∧ exec .encblk { t with din := t.dout, busy := true } = .next u ∧
      u.dout = s.din ∧ u.err = 0x0)

/-- inc32 keeps bytes 0 to 11 and adds one to the number in bytes 12 to 15, modulo 2^32; so it steps from one counter block
to the next, which R76 derives from R75. With the corner case of R76, the wrap. -/
def Obligations.CounterIncrement : Prop :=
  (∀ y : Block, (∀ i, i < 12 → blockByte (inc32 y) i = blockByte y i) ∧
    (blockWord (inc32 y) 3).toNat = ((blockWord y 3).toNat + 1) % 2 ^ 32) ∧
  (∀ (n : BitVec 96) (j : Nat), inc32 (counterBlock n j) = counterBlock n (j + 1)) ∧
  (∀ n : BitVec 96, inc32 (n ++ 0xFFFFFFFF#32) = n ++ 0x00000000#32)

/-- Inside one command there are at most MSG_BUF_BYTES / 16 <= 2^20 blocks, the counter of block j is 1 + j and does not
wrap, and the counter blocks are pairwise distinct (derived, as R88 is, from R75, R77 and R8), and so are the keystream
blocks (E is injective by R67). -/
def Obligations.KeystreamBlocksAreDistinct : Prop :=
  ∀ s : State, s.cfg.wf → s.len.toNat ≤ s.cfg.msgBufBytes →
    blockCount s.len.toNat ≤ s.cfg.msgBufBytes / 16 ∧ s.cfg.msgBufBytes / 16 ≤ 2 ^ 20 ∧
    ∀ j k : Nat, j < blockCount s.len.toNat → k < blockCount s.len.toNat →
      (blockWord (counterBlock (nonceBits s.nonce) j) 3).toNat = 1 + j ∧ 1 + j ≤ 2 ^ 20 ∧
      (j ≠ k → counterBlock (nonceBits s.nonce) j ≠ counterBlock (nonceBits s.nonce) k ∧
        encryptBlock s.rk (counterBlock (nonceBits s.nonce) j) ≠ encryptBlock s.rk (counterBlock (nonceBits s.nonce) k))

/-- The multiplier computes the product of polynomials over GF(2) modulo x^128 + x^7 + x^2 + x + 1 (R79), where the
coefficient of x^i of a block is its bit 127 - i. -/
def Obligations.GfMulIsThePolynomialProduct : Prop :=
  ∀ x y : Block,
    let poly := fun b : Block =>
      ∑ i ∈ Finset.range 128, if b.getLsbD (127 - i) then (Polynomial.X : Polynomial (ZMod 2)) ^ i else 0
    (Polynomial.X ^ 128 + Polynomial.X ^ 7 + Polynomial.X ^ 2 + Polynomial.X + 1) ∣ (poly x * poly y - poly (gfMul x y))

/-- The block 80 00 .. 00 is the identity of the multiplication, on both sides, and zero gives zero (R79). -/
def Obligations.GfMulIdentityAndZero : Prop :=
  ∀ x : Block, gfMul x 0x80000000000000000000000000000000 = x ∧ gfMul 0x80000000000000000000000000000000 x = x ∧
    gfMul x 0 = 0 ∧ gfMul 0 x = 0

/-- The multiplication is commutative and associative, and it distributes over XOR (R79). -/
def Obligations.GfMulAlgebra : Prop :=
  ∀ x y z : Block, gfMul x y = gfMul y x ∧ gfMul (gfMul x y) z = gfMul x (gfMul y z) ∧
    gfMul x (y ^^^ z) = gfMul x y ^^^ gfMul x z

/-- CtEqual is 1 exactly when all 16 bytes agree (R84). -/
def Obligations.CtEqualComparesEveryByte : Prop :=
  ∀ a b : Block, ctEqual a b = true ↔ ∀ i, i < 16 → blockByte a i = blockByte b i

/-- OPEN of what SEAL made gives the plaintext back (R86; the source's `open(seal(P,K,N))` property, V3a). -/
def Obligations.OpenUndoesSeal : Prop :=
  ∀ s t : State, exec .sealMsg s = .next t → t.err = 0x0 →
    ∃ m : Memory,
      exec .openMsg { t with cmd := encode .openMsg, busy := true } =
        .next { t with cmd := encode .openMsg, buf := m, err := 0x0, busy := false } ∧
      ∀ a, m.read a = s.buf.read a

/-- A second SEAL with the same RK, NONCE and LEN gives the plaintext back (R85, corner cases). -/
def Obligations.SealTwiceGivesThePlaintextBack : Prop :=
  ∀ s t : State, exec .sealMsg s = .next t → t.err = 0x0 →
    ∃ u, exec .sealMsg { t with busy := true } = .next u ∧ u.err = 0x0 ∧ ∀ a, u.buf.read a = s.buf.read a

/-- When OPEN succeeds, every other value of TAG makes it fail with AUTH_FAIL (R86: a flipped tag bit fails for certain). -/
def Obligations.EveryOtherTagFails : Prop :=
  ∀ (s t : State) (g : Quad), exec .openMsg s = .next t → t.err = 0x0 → g ≠ s.tag →
    exec .openMsg { s with tag := g } = .next { s with tag := g, err := 0x1, busy := false }

/-- OPEN does not check the nonce: its outcome code is the same for every NONCE (R83, R86). -/
def Obligations.OpenOutcomeIgnoresTheNonce : Prop :=
  ∀ (s t : State) (n : Triple), exec .openMsg s = .next t →
    ∃ u, exec .openMsg { s with nonce := n } = .next u ∧ u.err = t.err

/-- The empty message (R83, R85, R86): SEAL touches no BUF byte and sets TAG to H = E(0); OPEN succeeds exactly when
TAG = H, and touches no BUF byte. -/
def Obligations.EmptyMessage : Prop :=
  ∀ s : State, s.keyValid = true → s.len = 0 →
    exec .sealMsg s = .next { s with tag := words (encryptBlock s.rk 0), err := 0x0, busy := false } ∧
    exec .openMsg s = .next { s with err := if unwords s.tag = encryptBlock s.rk 0 then 0x0 else 0x1, busy := false }

/-! ### The host port

In each statement about a host step, the turn comes from the schedule `inputs` and the response goes to the list `answers`:
these two are the model's (log entries 2 and 3). -/

/-- STATUS (R16): BUSY is bit 0, KEYVALID bit 1, OVR bit 2, ERR bits 11:8, and every other bit reads as zero. -/
def Obligations.StatusWordLayout : Prop :=
  ∀ s : State, (statusWord s).toNat =
    s.busy.toNat + 2 * s.keyValid.toNat + 4 * s.ovr.toNat + 256 * s.err.toNat

/-- A host write of `v` to STATUS clears OVR when bit 2 of `v` is 1, whatever BUSY is, and does nothing else (R17). -/
def Obligations.StatusWriteClearsOverrun : Prop :=
  ∀ (v : Word) (s : State),
    writeTarget .status v s = { s with ovr := if v.getLsbD 2 = true then false else s.ovr }

/-- Every size but 4 bytes, every misaligned offset, and every offset at or above 0x1000 + MSG_BUF_BYTES gets SLVERR and no
state changes (R35, R36). The model does not cut an offset to the HOST_ADDR_BITS bits of R48: for an offset that does not fit
(with the default 4096, every offset of the third clause), SLVERR is DEDUCED from V32 and P4 (log entry 4). -/
def Obligations.UnsupportedTransactionsGetSlverr : Prop :=
  ∀ (s : State) (x : HostTx) (rest : List Input), s.inputs = .host x :: rest →
    x.size ≠ 2 ∨ x.off % 4 ≠ 0 ∨ 0x1000 + s.cfg.msgBufBytes ≤ x.off →
    step s = .next { s with inputs := rest, answers := .slvErr :: s.answers }

/-- A supported read of a register offset returns the value of R34's read columns and changes no state (R37). -/
def Obligations.RegisterReads : Prop :=
  ∀ (s : State) (x : HostTx) (rest : List Input), s.inputs = .host x :: rest →
    x.dir = .rd → x.size = 2 → x.off % 4 = 0 → x.off < 0x1000 →
    step s = .next { s with inputs := rest, answers := .data (registerRead s x.off) :: s.answers }

/-- A supported write of a register offset does what R38 says, in its order: STATUS, then the offsets that ignore writes,
then the drop with OVR <- 1 while BUSY = 1, then the store. -/
def Obligations.RegisterWrites : Prop :=
  ∀ (s : State) (x : HostTx) (rest : List Input), s.inputs = .host x :: rest →
    x.dir = .wr → x.size = 2 → x.off % 4 = 0 → x.off < 0x1000 →
    step s = .next (registerWrite x.off x.wdata { s with inputs := rest, answers := .okay :: s.answers })

/-- A read of a BUF word while BUSY = 0 returns its four bytes big-endian (R37, R40); it faults exactly when one of them is
unwritten (R47). -/
def Obligations.BufWordReads : Prop :=
  ∀ (s : State) (x : HostTx) (rest : List Input) (w : Nat), s.inputs = .host x :: rest →
    x.dir = .rd → x.size = 2 → x.off = 0x1000 + 4 * w → x.off < 0x1000 + s.cfg.msgBufBytes → s.busy = false →
    (∀ b : Nat → Byte, (∀ j, j < 4 → s.buf.read (4 * w + j) = some (b j)) →
      ∃ v : Word, step s = .next { s with inputs := rest, answers := .data v :: s.answers } ∧
        v.toNat = (b 0).toNat * 2 ^ 24 + (b 1).toNat * 2 ^ 16 + (b 2).toNat * 2 ^ 8 + (b 3).toNat) ∧
    (step s = .fault .hostReadUnwritten ↔ ∃ j, j < 4 ∧ s.buf.read (4 * w + j) = none)

/-- A write of a BUF word while BUSY = 0 stores its four bytes big-endian and leaves every other byte (R38, R40). -/
def Obligations.BufWordWrites : Prop :=
  ∀ (s : State) (x : HostTx) (rest : List Input) (w : Nat), s.inputs = .host x :: rest →
    x.dir = .wr → x.size = 2 → x.off = 0x1000 + 4 * w → x.off < 0x1000 + s.cfg.msgBufBytes → s.busy = false →
    ∃ m : Memory, step s = .next { s with inputs := rest, answers := .okay :: s.answers, buf := m } ∧
      (∀ j, j < 4 → m.read (4 * w + j) = some (x.wdata.extractLsb' (24 - 8 * j) 8)) ∧
      (∀ a, a < 4 * w ∨ 4 * w + 4 ≤ a → m.read a = s.buf.read a)

/-- While BUSY = 1 a BUF word reads as zero, written or not, and a BUF write is dropped and sets OVR (R37, R38, R109). -/
def Obligations.BufWindowWhileBusy : Prop :=
  ∀ (s : State) (x : HostTx) (rest : List Input), s.inputs = .host x :: rest →
    x.size = 2 → x.off % 4 = 0 → 0x1000 ≤ x.off → x.off < 0x1000 + s.cfg.msgBufBytes → s.busy = true →
    (x.dir = .rd → step s = .next { s with inputs := rest, answers := .data 0 :: s.answers }) ∧
    (x.dir = .wr → step s = .next { s with inputs := rest, answers := .okay :: s.answers, ovr := true })

/-- No host read changes the core's state, whatever it addresses (R37, R42): every field but the turn and the answer is as
before. -/
def Obligations.HostReadsChangeNothing : Prop :=
  ∀ (s t : State) (x : HostTx) (rest : List Input), s.inputs = .host x :: rest → x.dir = .rd → step s = .next t →
    t = { s with inputs := rest, answers := t.answers }

/-- The host pseudo-instructions LDKEY, LDNONCE, LDDIN and LDTAG on an idle core (R56): four (three) steps later the
registers hold the value, and nothing else has changed. The answers list is the model's (log entry 3). -/
def Obligations.LoadPseudoInstructions : Prop :=
  ∀ (s : State) (b : Block) (n : BitVec 96) (rest : List Input), s.busy = false →
    (s.inputs = (ldKey b).map Input.host ++ rest →
      ∃ q, unwords q = b ∧ runFor 4 s = .next { s with
        key := q, inputs := rest, answers := List.replicate 4 .okay ++ s.answers }) ∧
    (s.inputs = (ldNonce n).map Input.host ++ rest →
      ∃ q, nonceBits q = n ∧ runFor 3 s = .next { s with
        nonce := q, inputs := rest, answers := List.replicate 3 .okay ++ s.answers }) ∧
    (s.inputs = (ldDin b).map Input.host ++ rest →
      ∃ q, unwords q = b ∧ runFor 4 s = .next { s with
        din := q, inputs := rest, answers := List.replicate 4 .okay ++ s.answers }) ∧
    (s.inputs = (ldTag b).map Input.host ++ rest →
      ∃ q, unwords q = b ∧ runFor 4 s = .next { s with
        tag := q, inputs := rest, answers := List.replicate 4 .okay ++ s.answers })

/-- LDBUF on an idle core (R56): the bytes stand in BUF from byte 4w on, the last word padded with written zero bytes, and
every other byte of BUF is as before. -/
def Obligations.LoadBufferPseudoInstruction : Prop :=
  ∀ (s : State) (w : Nat) (bs : List Byte) (rest : List Input), s.busy = false →
    4 * w + 4 * ((bs.length + 3) / 4) ≤ s.cfg.msgBufBytes →
    s.inputs = (ldBuf w bs).map Input.host ++ rest →
    ∃ t, runFor ((bs.length + 3) / 4) s = .next t ∧
      t = { s with buf := t.buf, inputs := rest, answers := t.answers } ∧
      (∀ i, i < 4 * ((bs.length + 3) / 4) → t.buf.read (4 * w + i) = some (bs.getD i 0)) ∧
      (∀ a, a < 4 * w ∨ 4 * w + 4 * ((bs.length + 3) / 4) ≤ a → t.buf.read a = s.buf.read a)

/-! ### The BUSY window, reset and the whole machine -/

/-- The BUSY window (R109, R111, R113): whatever transactions the host issues before the engine's turn, the pending command
executes at that turn, on the operands and with the CMD word that stood when the window began; only OVR and the answers
can differ. The schedule is the model's (log entry 2). -/
def Obligations.BusyWindowKeepsTheOperandSnapshot : Prop :=
  ∀ (s : State) (xs : List HostTx) (later : List Input), s.busy = true →
    s.inputs = xs.map Input.host ++ later → later = [] ∨ (∃ rest, later = .engine :: rest) →
    ∃ (o : Bool) (as : List Response),
      runFor xs.length s = .next { s with inputs := later, ovr := o, answers := as } ∧
      runFor (xs.length + 1) s =
        match decode s.cmd with
        | .ok i => exec i { s with inputs := later.drop 1, ovr := o, answers := as }
        | .error _ => .next { s with inputs := later.drop 1, ovr := o, answers := as, err := 0x3, busy := false }

/-- The reset values of R31, for every MSG_BUF_BYTES; every BUF byte is unwritten, and ID reads as its constant. -/
def Obligations.ResetValues : Prop :=
  ∀ c : Config, let s := State.resetWith c
    readTarget .id s = some 0x534D3401 ∧
    s.busy = false ∧ s.keyValid = false ∧ s.ovr = false ∧ s.err = 0x0 ∧ (statusWord s).toNat = 0 ∧
    s.cmd = 0x00000000 ∧ s.len = 0x00000000 ∧
    s.key = ⟨0, 0, 0, 0⟩ ∧ s.nonce = ⟨0, 0, 0⟩ ∧ s.din = ⟨0, 0, 0, 0⟩ ∧ s.dout = ⟨0, 0, 0, 0⟩ ∧ s.tag = ⟨0, 0, 0, 0⟩ ∧
    (∀ i (h : i < 32), s.rk[i] = 0) ∧ (∀ a, s.buf.read a = none)

/-- A reset step, in every state, gives every piece of state its reset value of R31 and discards a pending command (R103);
what is outside the core (the parameters, the turns to come, the answers) stays, by the model's choice (log entry 9). -/
def Obligations.ResetStep : Prop :=
  ∀ (s : State) (rest : List Input), s.inputs = .reset :: rest →
    ∃ t, step s = .next t ∧
      t.busy = false ∧ t.keyValid = false ∧ t.ovr = false ∧ t.err = 0x0 ∧ t.cmd = 0 ∧ t.len = 0 ∧
      t.key = ⟨0, 0, 0, 0⟩ ∧ t.nonce = ⟨0, 0, 0⟩ ∧ t.din = ⟨0, 0, 0, 0⟩ ∧ t.dout = ⟨0, 0, 0, 0⟩ ∧ t.tag = ⟨0, 0, 0, 0⟩ ∧
      (∀ i (h : i < 32), t.rk[i] = 0) ∧ (∀ a, t.buf.read a = none) ∧
      t.cfg = s.cfg ∧ t.inputs = rest ∧ t.answers = s.answers

/-- Only a KEYSCHED or a reset changes RK or KEYVALID (R26, R27, R112). -/
def Obligations.OnlyKeyschedAndResetChangeTheRoundKeys : Prop :=
  ∀ s t : State, step s = .next t → (t.rk ≠ s.rk ∨ t.keyValid ≠ s.keyValid) →
    (s.engineNext ∧ s.busy = true ∧ s.cmd = 0x00000001) ∨ (∃ rest, s.inputs = .reset :: rest)

/-- BUSY becomes 1 only by an accepted CMD write, and becomes 0 only by an engine step or a reset (R16, R28). -/
def Obligations.BusyChanges : Prop :=
  ∀ s t : State, step s = .next t →
    (s.busy = false → t.busy = true → ∃ x rest, s.inputs = .host x :: rest ∧ x.dir = .wr ∧ x.size = 2 ∧ x.off = 0x008 ∧
      t.cmd = x.wdata) ∧
    (s.busy = true → t.busy = false → s.engineNext ∨ ∃ rest, s.inputs = .reset :: rest)

/-- OVR becomes 1 only by a host write dropped because BUSY = 1, and becomes 0 only by a STATUS write with bit 2 set or by a
reset; no command changes it (R94, R17). -/
def Obligations.OverrunChanges : Prop :=
  ∀ s t : State, step s = .next t →
    (s.ovr = false → t.ovr = true → s.busy = true ∧ ∃ x rest, s.inputs = .host x :: rest ∧ x.dir = .wr ∧
      t = { s with inputs := rest, ovr := true, answers := .okay :: s.answers }) ∧
    (s.ovr = true → t.ovr = false →
      (∃ x rest, s.inputs = .host x :: rest ∧ x.dir = .wr ∧ x.size = 2 ∧ x.off = 0x004 ∧ x.wdata.getLsbD 2 = true) ∨
      (∃ rest, s.inputs = .reset :: rest))

/-- The machine faults exactly where R47 says: a host read, made while BUSY = 0, of a BUF word with an unwritten byte, and a
SEAL or OPEN that reaches a message with one (R47, R96). Nothing else stops it. -/
def Obligations.FaultsComeOnlyFromUnwrittenBytes : Prop :=
  ∀ s : State,
    (step s = .fault .hostReadUnwritten ↔ s.busy = false ∧ ∃ x rest, s.inputs = .host x :: rest ∧ x.dir = .rd ∧
      x.size = 2 ∧ x.off % 4 = 0 ∧ 0x1000 ≤ x.off ∧ x.off < 0x1000 + s.cfg.msgBufBytes ∧
      ∃ j, j < 4 ∧ s.buf.read (x.off - 0x1000 + j) = none) ∧
    (step s = .fault .messageUnwritten ↔ s.busy = true ∧ s.engineNext ∧ (s.cmd = 0x00000004 ∨ s.cmd = 0x00000005) ∧
      s.keyValid = true ∧ s.len.toNat ≤ s.cfg.msgBufBytes ∧ ∃ a, a < s.len.toNat ∧ s.buf.read a = none) ∧
    (∀ r, step s ≠ .refused r)

/-- A host that only issues transactions never learns anything of KEY or RK (R20, R98): from two states that agree on all
the rest, any number of its transactions gives the same answers, the same faults, and states that still agree. -/
def Obligations.HostReadsRevealNoKeyMaterial : Prop :=
  ∀ (xs : List HostTx) (s s' : State), hideSecrets s = hideSecrets s' → s.inputs = xs.map Input.host →
    viewed hideSecrets (runFor xs.length s) = viewed hideSecrets (runFor xs.length s')

/-- The invariant holds right after reset (R31, R104). -/
def Obligations.ResetMeetsTheInvariant : Prop := State.reset.Inv

/-- Every step keeps the invariant, from every state that meets it: the parameters stay legal, BUF stays canonical and in
range, ERR stays a code that is raised, and RK is the schedule of some key exactly as KEYVALID says (R16, R26, R27, R30,
R90). -/
def Obligations.EveryStepKeepsTheInvariant : Prop :=
  ∀ s t : State, s.Inv → step s = .next t → t.Inv
end

