-- ==== Sys2Proof/Laws/Operands.lean ====
section
/-! SUPPORT. The laws of operand assembly: `words` and `unwords` are inverse (R10), the bytes of words and padded blocks
(R40, R77), and the bits of a rotation (R11). -/

namespace Sys2Proof.Machine

@[simp] theorem unwords_words (b : Block) : unwords (words b) = b := by
  apply BitVec.eq_of_getLsbD_eq
  intro i hi
  simp [unwords, words, blockWord]
  grind

@[simp] theorem words_unwords (q : Quad) : words (unwords q) = q := by
  obtain ⟨a, b, c, d⟩ := q
  simp only [words, blockWord, unwords, Quad.mk.injEq]
  refine ⟨?_, ?_, ?_, ?_⟩ <;> apply BitVec.eq_of_getLsbD_eq <;> intro i hi <;>
    simp [hi]
  all_goals grind

theorem wordByte_wordOfBytes (b : Nat → Byte) (j : Nat) (hj : j < 4) :
    wordByte (wordOfBytes (b 0) (b 1) (b 2) (b 3)) j = b j := by
  apply BitVec.eq_of_getLsbD_eq
  intro i hi
  rcases j with _ | _ | _ | _ | j
  · simp [wordByte, wordOfBytes, hi]
    grind
  · simp [wordByte, wordOfBytes, hi]
    grind
  · simp [wordByte, wordOfBytes, hi]
    grind
  · simp [wordByte, wordOfBytes, hi]
    grind
  · omega

theorem wordOfBytes_toNat (a b c d : Byte) : (wordOfBytes a b c d).toNat =
   a.toNat * 2 ^ 24 + b.toNat * 2 ^ 16 + c.toNat * 2 ^ 8 + d.toNat := by
  simp only [wordOfBytes, BitVec.toNat_append]
  rw [← Nat.shiftLeft_add_eq_or_of_lt b.isLt, ← Nat.shiftLeft_add_eq_or_of_lt c.isLt,
    ← Nat.shiftLeft_add_eq_or_of_lt d.isLt]
  simp only [Nat.shiftLeft_eq]
  ring

theorem getLsbD_placeBytes (bs : List Byte) (i k : Nat) (h : i + bs.length ≤ 16) (hk : k < 128) :
    (placeBytes i bs).getLsbD k =
     if i ≤ 15 - k / 8 then (bs.getD (15 - k/8 - i) 0).getLsbD (k % 8) else false := by
  induction bs generalizing i with
  | nil => simp [placeBytes]
  | cons b bs ih =>
    simp only [List.length_cons] at h
    simp only [placeBytes, BitVec.getLsbD_or, ih (i+1) (by omega), BitVec.getLsbD_shiftLeft, BitVec.getLsbD_setWidth]
    by_cases h1 : 15 - k / 8 = i
    · subst h1
      simp [hk]
      have : ¬ k < 120 - 8 * (15 - k/8) := by omega
      have h3 : ¬ (15 - k/8 + 1 ≤ 15 - k/8) := by omega
      have h4 : k - (120 - 8 * (15 - k/8)) = k % 8 := by omega
      simp [this, h4]; omega
    · by_cases h2 : i ≤ 15 - k/8
      · have : i + 1 ≤ 15 - k/8 := by omega
        have e : 15 - k/8 - i = (15 - k/8 - (i+1)) + 1 := by omega
        have z : k < 120 - 8 * i := by omega
        simp [h2, this, e, z]
      · have z : ¬ (i + 1 ≤ 15 - k/8) := by omega
        have z1 : 8 ≤ k - (120 - 8 * i) := by omega
        simp [h2, z]
        intros
        exact BitVec.getLsbD_of_ge _ _ z1

theorem getLsbD_blockByte (b : Block) (i k : Nat) (hk : k < 8): (blockByte b i).getLsbD k = b.getLsbD (120 - 8 * i + k) := by
  simp [blockByte, hk]

theorem blockByte_padBlock (bs : List Byte) (h : bs.length ≤ 16) (i : Nat) (hi : i < 16) :
    blockByte (padBlock bs) i = bs.getD i 0 := by
  apply BitVec.eq_of_getLsbD_eq
  intro k hk
  rw [getLsbD_blockByte _ _ _ hk, padBlock, getLsbD_placeBytes _ _ _ (by omega) (by omega)]
  rw [show 15 - (120 - 8 * i + k) / 8 - 0 = i by omega, show (120 - 8 * i + k) % 8 = k by omega]
  simp

theorem block_ext {a b : Block} (h : ∀ i, i < 16 → blockByte a i = blockByte b i) : a = b := by
  apply BitVec.eq_of_getLsbD_eq
  intro k hk
  have := congrArg (BitVec.getLsbD · (k % 8)) (h (15 - k / 8) (by omega))
  simp only [getLsbD_blockByte _ _ _ (show k % 8 < 8 by omega)] at this
  rwa [show 120 - 8 * (15 - k / 8) + k % 8 = k by omega] at this

theorem rotl32_getLsbD (x : Word) (n i : Nat) (hn : n < 32) (hi : i < 32) :
    (rotl32 x n).getLsbD i = x.getLsbD ((i + 32 - n) % 32) := by
  simp only [rotl32, BitVec.getLsbD_or, BitVec.getLsbD_shiftLeft, BitVec.getLsbD_ushiftRight]
  by_cases h : i < n
  · rw [show (i + 32 - n) % 32 = 32 - n + i by omega]; simp [h]
  · rw [show (i + 32 - n) % 32 = i - n by omega]; simp [h, hi]
    intro h2; exact absurd h2 (by simp; exact BitVec.getLsbD_of_ge _ _ (by omega))

theorem nonceBits_words (n : BitVec 96) :
    nonceBits ⟨n.extractLsb' 64 32, n.extractLsb' 32 32, n.extractLsb' 0 32⟩ = n := by
  apply BitVec.eq_of_getLsbD_eq
  intro i hi
  simp [nonceBits]
  grind

theorem unwords_injective {p q : Quad} (h : unwords p = unwords q) : p = q := by
  rw [← words_unwords p, h, words_unwords]

@[simp] theorem quadGet_set_same (q : Quad) (k : Fin 4) (v : Word) : quadGet (quadSet q k v) k = v := by
  fin_cases k <;> rfl

theorem quadGet_set_other (q : Quad) {j k : Fin 4} (v : Word) (h : j ≠ k) : quadGet (quadSet q k v) j = quadGet q j := by
  fin_cases j <;> fin_cases k <;> first | rfl | exact absurd rfl h

@[simp] theorem tripleGet_set_same (q : Triple) (k : Fin 3) (v : Word) : tripleGet (tripleSet q k v) k = v := by
  fin_cases k <;> rfl

theorem tripleGet_set_other (q : Triple) {j k : Fin 3} (v : Word) (h : j ≠ k) : tripleGet (tripleSet q k v) j = tripleGet q j := by
  fin_cases j <;> fin_cases k <;> first | rfl | exact absurd rfl h

end Sys2Proof.Machine
end

