-- ==== Sys2Proof/Laws/Memory.lean ====
section
/-! SUPPORT. The laws of BUF: a read after a write, what a write leaves alone, the canonical form, and what `memRead` and
`memWrite` do, said once. -/

namespace Sys2Proof.Machine

@[simp] theorem Memory.read_nil (a : Nat) : Memory.read [] a = none := rfl

theorem Memory.read_write (m : Memory) (a : Nat) (b : Byte) (x : Nat) :
    (m.write a b).read x = if x = a then some b else m.read x := by
  induction m with
  | nil => simp [Memory.write, Memory.read, eq_comm]
  | cons c m ih =>
    simp only [Memory.write]
    split
    · by_cases h : a = x <;> simp [Memory.read, h, eq_comm]
    · split
      · next h =>
        subst h
        by_cases hx : c.1 = x
        · simp [Memory.read, hx]
        · simp [Memory.read, hx, show x ≠ c.1 from fun e => hx e.symm]
      · next h =>
        simp only [Memory.read, ih]
        by_cases hx : c.1 = x
        · simp [hx, show x ≠ a by omega]
        · simp [hx]

@[simp] theorem Memory.read_write_same (m : Memory) (a : Nat) (b : Byte) : (m.write a b).read a = some b := by
  simp [Memory.read_write]

theorem Memory.read_write_other (m : Memory) {a x : Nat} (b : Byte) (h : x ≠ a) : (m.write a b).read x = m.read x := by
  simp [Memory.read_write, h]

/-! ### The canonical form -/

theorem Memory.risingFrom_mono {lo lo' : Nat} {m : Memory} (h : m.risingFrom lo = true) (hle : lo' ≤ lo) :
    m.risingFrom lo' = true := by
  cases m with
  | nil => rfl
  | cons c m =>
    simp only [Memory.risingFrom, Bool.and_eq_true, decide_eq_true_eq] at h ⊢
    exact ⟨Nat.le_trans hle h.1, h.2⟩

theorem Memory.risingFrom_write {lo : Nat} {m : Memory} (h : m.risingFrom lo = true) {a : Nat} (b : Byte) (ha : lo ≤ a) :
    (m.write a b).risingFrom lo = true := by
  induction m generalizing lo with
  | nil => simp [Memory.write, Memory.risingFrom, ha]
  | cons c m ih =>
    simp only [Memory.risingFrom, Bool.and_eq_true, decide_eq_true_eq] at h
    simp only [Memory.write]
    split
    · next hlt => simp [Memory.risingFrom, ha, h.2]; omega
    · split
      · next heq => subst heq; simp [Memory.risingFrom, ha, h.2]
      · next hlt hne => simp [Memory.risingFrom, h.1, ih h.2 (show c.1 + 1 ≤ a by omega)]

/-- A write keeps the canonical form. -/
theorem Memory.wf_write {m : Memory} (h : m.wf = true) (a : Nat) (b : Byte) : (m.write a b).wf = true :=
  Memory.risingFrom_write h b (Nat.zero_le a)

theorem Memory.mem_write {m : Memory} {a : Nat} {b : Byte} {c : Host.Cell} (h : c ∈ m.write a b) :
    c = (a, b) ∨ c ∈ m := by
  induction m with
  | nil => simpa [Memory.write] using h
  | cons d m ih =>
    simp only [Memory.write] at h
    split at h
    · simpa using h
    · split at h
      · simp at h ⊢; tauto
      · simp at h ⊢
        rcases h with h | h
        · tauto
        · rcases ih h with h | h <;> tauto

/-- A canonical memory is determined by what it reads as. -/
theorem Memory.risingFrom_read_lt {lo : Nat} {m : Memory} (h : m.risingFrom lo = true) {a : Nat} (ha : a < lo) :
    m.read a = none := by
  induction m generalizing lo with
  | nil => rfl
  | cons c m ih =>
    simp only [Memory.risingFrom, Bool.and_eq_true, decide_eq_true_eq] at h
    simp [Memory.read, show c.1 ≠ a by omega, ih h.2 (show a < c.1 + 1 by omega)]

/-! ### Sequences of bytes -/

/-- `memWrite`: the bytes written read back, and every other byte is as before. -/
theorem read_memWrite (m : Memory) (a : Nat) (bs : List Byte) (x : Nat) :
    (memWrite m a bs).read x =
      if a ≤ x ∧ x < a + bs.length then bs[x - a]? else m.read x := by
  induction bs generalizing m a with
  | nil => simp [memWrite]
  | cons b bs ih =>
    simp only [memWrite, ih, Memory.read_write, List.length_cons]
    by_cases hx : x = a
    · subst hx; simp
    · by_cases h : a ≤ x ∧ x < a + (bs.length + 1)
      · have h' : a + 1 ≤ x ∧ x < a + 1 + bs.length := by omega
        obtain ⟨k, rfl⟩ : ∃ k, x = a + 1 + k := ⟨x - (a + 1), by omega⟩
        simp only [h, h', and_self, if_true]
        rw [show a + 1 + k - (a + 1) = k by omega, show a + 1 + k - a = k + 1 by omega]
        simp
      · have h' : ¬ (a + 1 ≤ x ∧ x < a + 1 + bs.length) := by omega
        rw [if_neg h, if_neg h', if_neg hx]

/-- `memWrite` keeps the canonical form. -/
theorem wf_memWrite {m : Memory} (h : m.wf = true) (a : Nat) (bs : List Byte) : (memWrite m a bs).wf = true := by
  induction bs generalizing m a with
  | nil => exact h
  | cons b bs ih => exact ih (Memory.wf_write h a b) (a + 1)

theorem mem_memWrite {m : Memory} {a : Nat} {bs : List Byte} {c : Host.Cell} (h : c ∈ memWrite m a bs) :
    (a ≤ c.1 ∧ c.1 < a + bs.length) ∨ c ∈ m := by
  induction bs generalizing m a with
  | nil => exact .inr h
  | cons b bs ih =>
    rcases ih h with h | h
    · left; simp; omega
    · rcases Memory.mem_write h with rfl | h
      · left; simp
      · exact .inr h

/-- `memWrite` inside [0, n) keeps a memory inside [0, n). -/
theorem inRange_memWrite {m : Memory} {n : Nat} (h : ∀ c ∈ m, c.1 < n) {a : Nat} {bs : List Byte}
    (hle : a + bs.length ≤ n) : ∀ c ∈ memWrite m a bs, c.1 < n := by
  intro c hc
  rcases mem_memWrite hc with h' | h'
  · omega
  · exact h c h'

/-- `memRead` answers the bytes of a range exactly when each of them is written. -/
theorem memRead_eq_some (m : Memory) (a n : Nat) (bs : List Byte) :
    memRead m a n = some bs ↔ bs.length = n ∧ ∀ i, i < n → m.read (a + i) = bs[i]? := by
  induction n generalizing a bs with
  | zero => simp [memRead, eq_comm (a := ([] : List Byte))]
  | succ n ih =>
    simp only [memRead]
    constructor
    · intro h
      split at h
      · next b bs' hb hbs =>
        cases h
        obtain ⟨hl, hr⟩ := (ih (a + 1) bs').1 hbs
        refine ⟨by simp [hl], fun i hi => ?_⟩
        cases i with
        | zero => simpa using hb
        | succ i => simpa [Nat.add_assoc, Nat.add_comm 1 i] using hr i (by omega)
      · cases h
    · rintro ⟨hl, hr⟩
      cases bs with
      | nil => simp at hl
      | cons b bs =>
        have h0 : m.read a = some b := by simpa using hr 0 (by omega)
        have h1 : memRead m (a + 1) n = some bs := (ih (a + 1) bs).2 ⟨by simpa using hl, fun i hi => by
          simpa [Nat.add_assoc, Nat.add_comm 1 i] using hr (i + 1) (by omega)⟩
        simp [h0, h1]

theorem memRead_length {m : Memory} {a n : Nat} {bs : List Byte} (h : memRead m a n = some bs) : bs.length = n :=
  ((memRead_eq_some m a n bs).1 h).1

/-- `memRead` answers none exactly when a byte of the range is unwritten. -/
theorem memRead_eq_none (m : Memory) (a n : Nat) :
    memRead m a n = none ↔ ∃ i, i < n ∧ m.read (a + i) = none := by
  induction n generalizing a with
  | zero => simp [memRead]
  | succ n ih =>
    simp only [memRead]
    cases hb : m.read a with
    | none => simp; exact ⟨0, by omega, by simpa using hb⟩
    | some b =>
      cases hbs : memRead m (a + 1) n with
      | none =>
        obtain ⟨i, hi, hr⟩ := (ih (a + 1)).1 hbs
        simp
        exact ⟨i + 1, by omega, by rw [← hr]; congr 1; omega⟩
      | some bs =>
        simp
        intro i hi
        cases i with
        | zero => simp [hb]
        | succ i =>
          intro hr
          have : memRead m (a + 1) n = none := (ih (a + 1)).2 ⟨i, by omega, by rw [← hr]; congr 1; omega⟩
          simp [hbs] at this

/-- A message whose bytes are known, read whole. -/
theorem memRead_of_bytes {m : Memory} {n : Nat} {p : Nat → Byte} (h : ∀ i, i < n → m.read i = some (p i)) :
    memRead m 0 n = some ((List.range n).map p) := by
  rw [memRead_eq_some]
  refine ⟨by simp, fun i hi => ?_⟩
  simp [h i hi, hi]

/-! ### BUF words -/

/-- `writeBufWord`: the four bytes of the word, big-endian, and every other byte as before. -/
theorem read_writeBufWord (m : Memory) (w : Nat) (v : Word) (x : Nat) :
    (writeBufWord m w v).read x =
      if 4 * w ≤ x ∧ x < 4 * w + 4 then some (wordByte v (x - 4 * w)) else m.read x := by
  simp only [writeBufWord, read_memWrite, List.length_cons, List.length_nil]
  split
  · next h =>
    obtain ⟨k, hk, rfl⟩ : ∃ k, k < 4 ∧ x = 4 * w + k := ⟨x - 4 * w, by omega, by omega⟩
    rw [show 4 * w + k - 4 * w = k by omega]
    rcases k with _ | _ | _ | _ | k
    · rfl
    · rfl
    · rfl
    · rfl
    · omega
  · rfl

theorem wf_writeBufWord {m : Memory} (h : m.wf = true) (w : Nat) (v : Word) : (writeBufWord m w v).wf = true :=
  wf_memWrite h _ _

theorem bufWord_eq_none (m : Memory) (w : Nat) :
    bufWord m w = none ↔ ∃ j, j < 4 ∧ m.read (4 * w + j) = none := by
  constructor
  · intro h
    by_contra hn
    simp only [not_exists, not_and] at hn
    obtain ⟨b0, h0⟩ := Option.ne_none_iff_exists'.1 (hn 0 (by omega))
    obtain ⟨b1, h1⟩ := Option.ne_none_iff_exists'.1 (hn 1 (by omega))
    obtain ⟨b2, h2⟩ := Option.ne_none_iff_exists'.1 (hn 2 (by omega))
    obtain ⟨b3, h3⟩ := Option.ne_none_iff_exists'.1 (hn 3 (by omega))
    simp at h0
    simp [bufWord, h0, h1, h2, h3] at h
  · rintro ⟨j, hj, h⟩
    simp only [bufWord]
    split
    · next b0 b1 b2 b3 h0 h1 h2 h3 =>
      rcases j with _ | _ | _ | _ | j
      · simp [h0] at h
      · simp [h1] at h
      · simp [h2] at h
      · simp [h3] at h
      · omega
    · rfl

theorem bufWord_of_bytes {m : Memory} {w : Nat} {b : Nat → Byte} (h : ∀ j, j < 4 → m.read (4 * w + j) = some (b j)) :
    bufWord m w = some (wordOfBytes (b 0) (b 1) (b 2) (b 3)) := by
  have h0 := h 0 (by omega)
  have h1 := h 1 (by omega)
  have h2 := h 2 (by omega)
  have h3 := h 3 (by omega)
  simp at h0
  simp [bufWord, h0, h1, h2, h3]

end Sys2Proof.Machine
end

