-- ==== Sys2Proof/Laws/State.lean ====
section
/-! SUPPORT. One lemma per field for each shared update of the state, true by `rfl`, so that no later proof unfolds a
record update. -/

namespace Sys2Proof.Machine

/-! ### Completing a command (R12) -/

@[simp] theorem complete_cfg (e : ErrCode) (s : State) : (complete e s).cfg = s.cfg := rfl
@[simp] theorem complete_busy (e : ErrCode) (s : State) : (complete e s).busy = false := rfl
@[simp] theorem complete_keyValid (e : ErrCode) (s : State) : (complete e s).keyValid = s.keyValid := rfl
@[simp] theorem complete_ovr (e : ErrCode) (s : State) : (complete e s).ovr = s.ovr := rfl
@[simp] theorem complete_err (e : ErrCode) (s : State) : (complete e s).err = e.bits := rfl
@[simp] theorem complete_cmd (e : ErrCode) (s : State) : (complete e s).cmd = s.cmd := rfl
@[simp] theorem complete_len (e : ErrCode) (s : State) : (complete e s).len = s.len := rfl
@[simp] theorem complete_key (e : ErrCode) (s : State) : (complete e s).key = s.key := rfl
@[simp] theorem complete_nonce (e : ErrCode) (s : State) : (complete e s).nonce = s.nonce := rfl
@[simp] theorem complete_din (e : ErrCode) (s : State) : (complete e s).din = s.din := rfl
@[simp] theorem complete_dout (e : ErrCode) (s : State) : (complete e s).dout = s.dout := rfl
@[simp] theorem complete_tag (e : ErrCode) (s : State) : (complete e s).tag = s.tag := rfl
@[simp] theorem complete_rk (e : ErrCode) (s : State) : (complete e s).rk = s.rk := rfl
@[simp] theorem complete_buf (e : ErrCode) (s : State) : (complete e s).buf = s.buf := rfl
@[simp] theorem complete_inputs (e : ErrCode) (s : State) : (complete e s).inputs = s.inputs := rfl
@[simp] theorem complete_answers (e : ErrCode) (s : State) : (complete e s).answers = s.answers := rfl

/-! ### Answering a transaction (R106) -/

@[simp] theorem answer_cfg (r : Response) (s : State) : (answer r s).cfg = s.cfg := rfl
@[simp] theorem answer_busy (r : Response) (s : State) : (answer r s).busy = s.busy := rfl
@[simp] theorem answer_keyValid (r : Response) (s : State) : (answer r s).keyValid = s.keyValid := rfl
@[simp] theorem answer_ovr (r : Response) (s : State) : (answer r s).ovr = s.ovr := rfl
@[simp] theorem answer_err (r : Response) (s : State) : (answer r s).err = s.err := rfl
@[simp] theorem answer_cmd (r : Response) (s : State) : (answer r s).cmd = s.cmd := rfl
@[simp] theorem answer_len (r : Response) (s : State) : (answer r s).len = s.len := rfl
@[simp] theorem answer_key (r : Response) (s : State) : (answer r s).key = s.key := rfl
@[simp] theorem answer_nonce (r : Response) (s : State) : (answer r s).nonce = s.nonce := rfl
@[simp] theorem answer_din (r : Response) (s : State) : (answer r s).din = s.din := rfl
@[simp] theorem answer_dout (r : Response) (s : State) : (answer r s).dout = s.dout := rfl
@[simp] theorem answer_tag (r : Response) (s : State) : (answer r s).tag = s.tag := rfl
@[simp] theorem answer_rk (r : Response) (s : State) : (answer r s).rk = s.rk := rfl
@[simp] theorem answer_buf (r : Response) (s : State) : (answer r s).buf = s.buf := rfl
@[simp] theorem answer_inputs (r : Response) (s : State) : (answer r s).inputs = s.inputs := rfl
@[simp] theorem answer_answers (r : Response) (s : State) : (answer r s).answers = r :: s.answers := rfl

/-! ### Taking a turn (R13) -/

@[simp] theorem withInputs_cfg (l : List Input) (s : State) : (withInputs l s).cfg = s.cfg := rfl
@[simp] theorem withInputs_busy (l : List Input) (s : State) : (withInputs l s).busy = s.busy := rfl
@[simp] theorem withInputs_keyValid (l : List Input) (s : State) : (withInputs l s).keyValid = s.keyValid := rfl
@[simp] theorem withInputs_ovr (l : List Input) (s : State) : (withInputs l s).ovr = s.ovr := rfl
@[simp] theorem withInputs_err (l : List Input) (s : State) : (withInputs l s).err = s.err := rfl
@[simp] theorem withInputs_cmd (l : List Input) (s : State) : (withInputs l s).cmd = s.cmd := rfl
@[simp] theorem withInputs_len (l : List Input) (s : State) : (withInputs l s).len = s.len := rfl
@[simp] theorem withInputs_key (l : List Input) (s : State) : (withInputs l s).key = s.key := rfl
@[simp] theorem withInputs_nonce (l : List Input) (s : State) : (withInputs l s).nonce = s.nonce := rfl
@[simp] theorem withInputs_din (l : List Input) (s : State) : (withInputs l s).din = s.din := rfl
@[simp] theorem withInputs_dout (l : List Input) (s : State) : (withInputs l s).dout = s.dout := rfl
@[simp] theorem withInputs_tag (l : List Input) (s : State) : (withInputs l s).tag = s.tag := rfl
@[simp] theorem withInputs_rk (l : List Input) (s : State) : (withInputs l s).rk = s.rk := rfl
@[simp] theorem withInputs_buf (l : List Input) (s : State) : (withInputs l s).buf = s.buf := rfl
@[simp] theorem withInputs_inputs (l : List Input) (s : State) : (withInputs l s).inputs = l := rfl
@[simp] theorem withInputs_answers (l : List Input) (s : State) : (withInputs l s).answers = s.answers := rfl

/-! ### Writing STATUS (R17) -/

@[simp] theorem writeStatus_cfg (v : Word) (s : State) : (writeStatus v s).cfg = s.cfg := rfl
@[simp] theorem writeStatus_busy (v : Word) (s : State) : (writeStatus v s).busy = s.busy := rfl
@[simp] theorem writeStatus_keyValid (v : Word) (s : State) : (writeStatus v s).keyValid = s.keyValid := rfl
@[simp] theorem writeStatus_ovr (v : Word) (s : State) : (writeStatus v s).ovr = if v.getLsbD 2 then false else s.ovr := rfl
@[simp] theorem writeStatus_err (v : Word) (s : State) : (writeStatus v s).err = s.err := rfl
@[simp] theorem writeStatus_cmd (v : Word) (s : State) : (writeStatus v s).cmd = s.cmd := rfl
@[simp] theorem writeStatus_len (v : Word) (s : State) : (writeStatus v s).len = s.len := rfl
@[simp] theorem writeStatus_key (v : Word) (s : State) : (writeStatus v s).key = s.key := rfl
@[simp] theorem writeStatus_nonce (v : Word) (s : State) : (writeStatus v s).nonce = s.nonce := rfl
@[simp] theorem writeStatus_din (v : Word) (s : State) : (writeStatus v s).din = s.din := rfl
@[simp] theorem writeStatus_dout (v : Word) (s : State) : (writeStatus v s).dout = s.dout := rfl
@[simp] theorem writeStatus_tag (v : Word) (s : State) : (writeStatus v s).tag = s.tag := rfl
@[simp] theorem writeStatus_rk (v : Word) (s : State) : (writeStatus v s).rk = s.rk := rfl
@[simp] theorem writeStatus_buf (v : Word) (s : State) : (writeStatus v s).buf = s.buf := rfl
@[simp] theorem writeStatus_inputs (v : Word) (s : State) : (writeStatus v s).inputs = s.inputs := rfl
@[simp] theorem writeStatus_answers (v : Word) (s : State) : (writeStatus v s).answers = s.answers := rfl

/-! ### Right after reset (R31) -/

@[simp] theorem resetWith_cfg (c : Config) : (State.resetWith c).cfg = c := rfl
@[simp] theorem resetWith_busy (c : Config) : (State.resetWith c).busy = false := rfl
@[simp] theorem resetWith_keyValid (c : Config) : (State.resetWith c).keyValid = false := rfl
@[simp] theorem resetWith_ovr (c : Config) : (State.resetWith c).ovr = false := rfl
@[simp] theorem resetWith_err (c : Config) : (State.resetWith c).err = 0 := rfl
@[simp] theorem resetWith_cmd (c : Config) : (State.resetWith c).cmd = 0 := rfl
@[simp] theorem resetWith_len (c : Config) : (State.resetWith c).len = 0 := rfl
@[simp] theorem resetWith_key (c : Config) : (State.resetWith c).key = zeroQuad := rfl
@[simp] theorem resetWith_nonce (c : Config) : (State.resetWith c).nonce = ⟨0, 0, 0⟩ := rfl
@[simp] theorem resetWith_din (c : Config) : (State.resetWith c).din = zeroQuad := rfl
@[simp] theorem resetWith_dout (c : Config) : (State.resetWith c).dout = zeroQuad := rfl
@[simp] theorem resetWith_tag (c : Config) : (State.resetWith c).tag = zeroQuad := rfl
@[simp] theorem resetWith_rk (c : Config) : (State.resetWith c).rk = Vector.replicate 32 0 := rfl
@[simp] theorem resetWith_buf (c : Config) : (State.resetWith c).buf = [] := rfl
@[simp] theorem resetWith_inputs (c : Config) : (State.resetWith c).inputs = [] := rfl
@[simp] theorem resetWith_answers (c : Config) : (State.resetWith c).answers = [] := rfl

/-! ### The reset step (R103) -/

@[simp] theorem resetStep_cfg (s : State) : (resetStep s).cfg = s.cfg := rfl
@[simp] theorem resetStep_busy (s : State) : (resetStep s).busy = false := rfl
@[simp] theorem resetStep_keyValid (s : State) : (resetStep s).keyValid = false := rfl
@[simp] theorem resetStep_ovr (s : State) : (resetStep s).ovr = false := rfl
@[simp] theorem resetStep_err (s : State) : (resetStep s).err = 0 := rfl
@[simp] theorem resetStep_cmd (s : State) : (resetStep s).cmd = 0 := rfl
@[simp] theorem resetStep_len (s : State) : (resetStep s).len = 0 := rfl
@[simp] theorem resetStep_key (s : State) : (resetStep s).key = zeroQuad := rfl
@[simp] theorem resetStep_nonce (s : State) : (resetStep s).nonce = ⟨0, 0, 0⟩ := rfl
@[simp] theorem resetStep_din (s : State) : (resetStep s).din = zeroQuad := rfl
@[simp] theorem resetStep_dout (s : State) : (resetStep s).dout = zeroQuad := rfl
@[simp] theorem resetStep_tag (s : State) : (resetStep s).tag = zeroQuad := rfl
@[simp] theorem resetStep_rk (s : State) : (resetStep s).rk = Vector.replicate 32 0 := rfl
@[simp] theorem resetStep_buf (s : State) : (resetStep s).buf = [] := rfl
@[simp] theorem resetStep_inputs (s : State) : (resetStep s).inputs = s.inputs := rfl
@[simp] theorem resetStep_answers (s : State) : (resetStep s).answers = s.answers := rfl

/-- BUF right after reset is in canonical form. -/
@[simp] theorem resetWith_buf_wf (c : Config) : (State.resetWith c).buf.wf = true := rfl

/-! ### A store through the BUSY check (R38) -/

@[simp] theorem storeIfIdle_idle {s : State} (s' : State) (h : s.busy = false) : storeIfIdle s s' = s' := by
  simp [storeIfIdle, h]

@[simp] theorem storeIfIdle_busy {s : State} (s' : State) (h : s.busy = true) :
    storeIfIdle s s' = { s with ovr := true } := by
  simp [storeIfIdle, h]

end Sys2Proof.Machine
end

