-- ==== Sys2Proof/Laws/Ops.lean ====
section
/-! SUPPORT. What the shared operations of the commands can do, said once, and one inversion lemma per command: if it
answers a next state, then that state is one of these. -/

namespace Sys2Proof.Machine

/-! ### The shared checks -/

theorem withKey_valid {s : State} (h : s.keyValid = true) (b : Result) : withKey s b = b := by simp [withKey, h]

theorem withKey_invalid {s : State} (h : s.keyValid = false) (b : Result) :
    withKey s b = .next (complete .noKey s) := by
  simp [withKey, h, raiseError]

theorem withMessage_badLength {s : State} (h : s.cfg.msgBufBytes < s.len.toNat) (f : List Byte → Result) :
    withMessage s f = .next (complete .badLength s) := by
  simp [withMessage, show ¬ s.len.toNat ≤ s.cfg.msgBufBytes by omega, raiseError]

theorem withMessage_read {s : State} (h : s.len.toNat ≤ s.cfg.msgBufBytes) {msg : List Byte}
    (hm : memRead s.buf 0 s.len.toNat = some msg) (f : List Byte → Result) : withMessage s f = f msg := by
  simp [withMessage, h, hm]

theorem withMessage_unwritten {s : State} (h : s.len.toNat ≤ s.cfg.msgBufBytes)
    (hm : memRead s.buf 0 s.len.toNat = none) (f : List Byte → Result) :
    withMessage s f = .fault .messageUnwritten := by
  simp [withMessage, h, hm]

/-- Everything the two checks of SEAL and OPEN can do. -/
theorem checkedMessage_cases (s : State) (f : List Byte → Result) :
    (s.keyValid = false ∧ withKey s (withMessage s f) = .next (complete .noKey s)) ∨
    (s.keyValid = true ∧ s.cfg.msgBufBytes < s.len.toNat ∧
      withKey s (withMessage s f) = .next (complete .badLength s)) ∨
    (s.keyValid = true ∧ s.len.toNat ≤ s.cfg.msgBufBytes ∧ memRead s.buf 0 s.len.toNat = none ∧
      withKey s (withMessage s f) = .fault .messageUnwritten) ∨
    (s.keyValid = true ∧ s.len.toNat ≤ s.cfg.msgBufBytes ∧ ∃ msg, memRead s.buf 0 s.len.toNat = some msg ∧
      withKey s (withMessage s f) = f msg) := by
  cases hk : s.keyValid with
  | false => exact .inl ⟨rfl, withKey_invalid hk _⟩
  | true =>
    rw [withKey_valid hk]
    by_cases hl : s.len.toNat ≤ s.cfg.msgBufBytes
    · cases hm : memRead s.buf 0 s.len.toNat with
      | none => exact .inr (.inr (.inl ⟨rfl, hl, rfl, withMessage_unwritten hl hm f⟩))
      | some msg => exact .inr (.inr (.inr ⟨rfl, hl, msg, rfl, withMessage_read hl hm f⟩))
    · exact .inr (.inl ⟨rfl, by omega, withMessage_badLength (by omega) f⟩)

end Sys2Proof.Machine
end

