-- ==== Sys2Proof/Laws/Cipher.lean ====
section
/-! SUPPORT. The cipher and its commands: one round undone, many rounds undone, and what ENCBLK, DECBLK and KEYSCHED
answer. -/

namespace Sys2Proof.Machine

@[simp] theorem reverseQuad_reverseQuad (q : Quad) : reverseQuad (reverseQuad q) = q := rfl

/-- A round on the reversed quadruple, under the same key, undoes a round (R61, R67). -/
theorem cipherRound_reverse (q : Quad) (k : Word) :
    cipherRound (reverseQuad (cipherRound q k)) k = reverseQuad q := by
  obtain ⟨a, b, c, d⟩ := q
  simp only [cipherRound, reverseQuad, Quad.mk.injEq, true_and]
  rw [show d ^^^ c ^^^ b ^^^ k = b ^^^ c ^^^ d ^^^ k by ac_rfl, BitVec.xor_assoc, BitVec.xor_self, BitVec.xor_zero]

/-- The rounds under the reversed keys, from the reversed quadruple, undo the rounds (R67). -/
theorem foldl_cipherRound_reverse (ks : List Word) (q : Quad) :
    ks.reverse.foldl cipherRound (reverseQuad (ks.foldl cipherRound q)) = reverseQuad q := by
  induction ks generalizing q with
  | nil => rfl
  | cons k ks ih => simp [List.foldl_append, ih, cipherRound_reverse]

theorem execEncblk_keyed {s : State} (h : s.keyValid = true) :
    execEncblk s = .next (complete .ok { s with dout := words (encryptBlock s.rk (unwords s.din)) }) :=
  withKey_valid h _

theorem execDecblk_keyed {s : State} (h : s.keyValid = true) :
    execDecblk s = .next (complete .ok { s with dout := words (decryptBlock s.rk (unwords s.din)) }) :=
  withKey_valid h _

theorem execEncblk_unkeyed {s : State} (h : s.keyValid = false) : execEncblk s = .next (complete .noKey s) :=
  withKey_invalid h _

theorem execDecblk_unkeyed {s : State} (h : s.keyValid = false) : execDecblk s = .next (complete .noKey s) :=
  withKey_invalid h _

@[simp] theorem schedule_toList (k : Block) : (schedule k).toList = keyRounds 0 (keyStart k) 32 := rfl

end Sys2Proof.Machine
end

