-- ==== Sys2Proof/Laws/Aead.lean ====
section
/-! SUPPORT. The laws of the Authenticated Streaming Mode: the bytes of the keystream XOR (R78), the constant-time
comparison (R84), and everything SEAL and OPEN can do (R85, R86). -/

namespace Sys2Proof.Machine

theorem takeBlocks_lengths (nb : Nat) (y : List Byte) : ∀ b ∈ takeBlocks y nb, b.length ≤ 16 := by
  induction nb generalizing y with
  | zero => simp [takeBlocks]
  | succ nb ih => 
    intro b hb
    simp only [takeBlocks, List.mem_cons] at hb
    rcases hb with rfl | hb
    · simp
    · exact ih _ b hb

/-- Block `j` of the partition: 16 bytes from byte 16j on, or as many as are left (R77). -/
theorem takeBlocks_getElem? (nb j : Nat) (y : List Byte) (h : j < nb) :
    (takeBlocks y nb)[j]? = some ((y.drop (16 * j)).take 16) := by
  induction nb generalizing y j with
  | zero => omega
  | succ nb ih =>
    cases j with
    | zero => simp [takeBlocks]
    | succ j =>
      simp only [takeBlocks, List.getElem?_cons_succ, ih j _ (by omega), List.drop_drop]
      rw [show 16 + 16 * j = 16 * (j + 1) by omega]

@[simp] theorem takeBlocks_length (nb : Nat) (y : List Byte) : (takeBlocks y nb).length = nb := by
  induction nb generalizing y with
  | zero => rfl
  | succ nb ih => simp [takeBlocks, ih]

theorem xorPrefix_length (y : List Byte) (k : Block) (h : y.length ≤ 16) : (xorPrefix y k).length = y.length := by
  simp [xorPrefix, blockBytes]; omega

theorem xorPrefix_getElem? (y : List Byte) (k : Block) (i : Nat) (h : i < 16) :
    (xorPrefix y k)[i]? = y[i]?.map (· ^^^ blockByte k i) := by
  simp [xorPrefix, blockBytes, List.getElem?_zipWith, h]
  cases y[i]? <;> rfl

/-- Byte `i` of the keystream XOR of the blocks from index `j` on. -/
theorem xorBlocks_getElem? (rk : Vector Word 32) (n : BitVec 96) (j : Nat) (y : List Byte) (nb i : Nat) (hn : y.length ≤ 16 * nb) :
    (xorBlocks rk n j (takeBlocks y nb))[i]? =
      y[i]?.map (· ^^^ blockByte (encryptBlock rk (counterBlock n (j + i / 16))) (i % 16)) := by
  induction nb generalizing j y i with
  | zero => 
    have : y = [] := List.length_eq_zero_iff.1 (by omega)
    simp [this, takeBlocks, xorBlocks]
  | succ nb ih =>
    simp only [takeBlocks, xorBlocks]
    have hl : (xorPrefix (y.take 16) (encryptBlock rk (counterBlock n j))).length = (y.take 16).length :=
      xorPrefix_length _ _ (by simp)
    by_cases hi : i < 16
    · by_cases hy : i < y.length
      · rw [List.getElem?_append_left (by rw [hl]; simp; omega), xorPrefix_getElem? _ _ _ hi]
        simp [hi, Nat.div_eq_of_lt hi, Nat.mod_eq_of_lt hi]
      · rw [List.getElem?_append_right (by rw [hl]; simp; omega), ih _ _ _ (by simp; omega)]
        simp at hy
        simp [hy]
        omega
    · by_cases hy : 16 ≤ y.length
      · rw [List.getElem?_append_right (by rw [hl]; simp; omega), ih _ _ _ (by simp; omega), hl]
        have : (y.take 16).length = 16 := by simp; omega
        simp only [this, List.getElem?_drop]
        rw [show 16 + (i - 16) = i by omega, show j + 1 + (i - 16) / 16 = j + i / 16 by omega, show (i - 16) % 16 = i % 16 by omega]
      · rw [List.getElem?_append_right (by rw [hl]; simp; omega), ih _ _ _ (by simp; omega)]
        simp
        rw [List.getElem?_eq_none (by omega), List.getElem?_eq_none (by omega)]
        simp

/-- Byte `i` of the keystream XOR (R78). -/
theorem keystreamXor_getElem? (rk : Vector Word 32) (n : BitVec 96) (y : List Byte) (i : Nat) :
    (keystreamXor rk n y)[i]? =
      y[i]?.map (· ^^^ blockByte (encryptBlock rk (counterBlock n (i / 16))) (i % 16)) := by
  rw [keystreamXor, blocksOf, xorBlocks_getElem? _ _ _ _ _ _ (by simp [blockCount]; omega)]
  simp

@[simp] theorem keystreamXor_length (rk : Vector Word 32) (n : BitVec 96) (y : List Byte) :
    (keystreamXor rk n y).length = y.length := by
  apply Nat.le_antisymm
  · by_contra h
    have := keystreamXor_getElem? rk n y y.length
    rw [List.getElem?_eq_getElem (by omega)] at this
    simp at this
  · by_contra h
    have := keystreamXor_getElem? rk n y (keystreamXor rk n y).length
    rw [List.getElem?_eq_getElem (l := y) (by omega)] at this
    simp at this

/-- The keystream XOR is its own inverse (R78). -/
theorem keystreamXor_keystreamXor (rk : Vector Word 32) (n : BitVec 96) (y : List Byte) :
    keystreamXor rk n (keystreamXor rk n y) = y := by
  apply List.ext_getElem?
  intro i
  rw [keystreamXor_getElem?, keystreamXor_getElem?]
  cases y[i]? with
  | none => rfl
  | some b => simp

/-- The comparison decides equality of blocks (R84). -/
theorem ctEqual_iff (a b : Block) : ctEqual a b = true ↔ a = b := by
  have key : ∀ (l : List Nat) (d : Byte), l.foldl (fun d i => d ||| (blockByte a i ^^^ blockByte b i)) d = 0 ↔
      d = 0 ∧ ∀ i ∈ l, blockByte a i = blockByte b i := by
    intro l
    induction l with
    | nil => simp
    | cons i l ih =>
      intro d
      simp only [List.foldl_cons, ih, List.mem_cons, forall_eq_or_imp]
      simp only [BitVec.ofNat_eq_ofNat, BitVec.or_eq_zero_iff, BitVec.xor_eq_zero_iff]
      tauto
  rw [ctEqual, beq_iff_eq, key]
  simp only [true_and, List.mem_range]
  exact ⟨block_ext, by rintro rfl; simp⟩

/-! ### Counter and length blocks (R75, R82) -/

theorem extractLsb'_append_high {v w : Nat} (a : BitVec v) (b : BitVec w) : (a ++ b).extractLsb' w v = a := by
  apply BitVec.eq_of_getLsbD_eq
  intro i hi
  simp [hi, BitVec.getLsbD_append]

theorem extractLsb'_append_low {v w : Nat} (a : BitVec v) (b : BitVec w) : (a ++ b).extractLsb' 0 w = b := by
  apply BitVec.eq_of_getLsbD_eq
  intro i hi
  simp [hi, BitVec.getLsbD_append]

@[simp] theorem counterBlock_nonce (n : BitVec 96) (j : Nat) : (counterBlock n j).extractLsb' 32 96 = n :=
  extractLsb'_append_high n (BitVec.ofNat 32 (1 + j))

@[simp] theorem counterBlock_count (n : BitVec 96) (j : Nat) : blockWord (counterBlock n j) 3 = BitVec.ofNat 32 (1 + j) :=
  extractLsb'_append_low n (BitVec.ofNat 32 (1 + j))

/-- The length block of a message that LEN can name is the number 8n (R82). -/
theorem lenBlock_eq {n : Nat} (h : n < 2 ^ 32) : lenBlock n = BitVec.ofNat 128 (8 * n) := by
  apply BitVec.eq_of_toNat_eq
  refine (BitVec.toNat_append (0 : BitVec 64) (BitVec.ofNat 64 (8 * n))).trans ?_
  simp; omega

/-! ### The commands -/

/-- SEAL of a message that it reads (R85). -/
theorem execSeal_read {s : State} (hk : s.keyValid = true) (hl : s.len.toNat ≤ s.cfg.msgBufBytes) {p : List Byte}
    (hp : memRead s.buf 0 s.len.toNat = some p) :
    execSeal s = .next (complete .ok { s with
      buf := memWrite s.buf 0 (keystreamXor s.rk (nonceBits s.nonce) p),
      tag := words (authTag s.rk (keystreamXor s.rk (nonceBits s.nonce) p)) }) :=
  (withKey_valid hk _).trans (withMessage_read hl hp _)

/-- OPEN of a message whose tag is the expected one (R86). -/
theorem execOpen_match {s : State} (hk : s.keyValid = true) (hl : s.len.toNat ≤ s.cfg.msgBufBytes) {c : List Byte}
    (hc : memRead s.buf 0 s.len.toNat = some c) (ht : authTag s.rk c = unwords s.tag) :
    execOpen s = .next (complete .ok { s with
      buf := memWrite s.buf 0 (keystreamXor s.rk (nonceBits s.nonce) c) }) :=
  ((withKey_valid hk _).trans (withMessage_read hl hc _)).trans (if_pos ((ctEqual_iff _ _).2 ht))

/-- OPEN of a message whose tag is not the expected one (R86). -/
theorem execOpen_mismatch {s : State} (hk : s.keyValid = true) (hl : s.len.toNat ≤ s.cfg.msgBufBytes) {c : List Byte}
    (hc : memRead s.buf 0 s.len.toNat = some c) (ht : authTag s.rk c ≠ unwords s.tag) :
    execOpen s = .next (complete .authFail s) :=
  ((withKey_valid hk _).trans (withMessage_read hl hc _)).trans (if_neg (by rwa [ctEqual_iff]))

/-- Everything SEAL can do. -/
theorem execSeal_cases (s : State) :
    (s.keyValid = false ∧ execSeal s = .next (complete .noKey s)) ∨
    (s.keyValid = true ∧ s.cfg.msgBufBytes < s.len.toNat ∧ execSeal s = .next (complete .badLength s)) ∨
    (s.keyValid = true ∧ s.len.toNat ≤ s.cfg.msgBufBytes ∧ memRead s.buf 0 s.len.toNat = none ∧
      execSeal s = .fault .messageUnwritten) ∨
    (s.keyValid = true ∧ s.len.toNat ≤ s.cfg.msgBufBytes ∧ ∃ p, memRead s.buf 0 s.len.toNat = some p ∧
      execSeal s = .next (complete .ok { s with
        buf := memWrite s.buf 0 (keystreamXor s.rk (nonceBits s.nonce) p),
        tag := words (authTag s.rk (keystreamXor s.rk (nonceBits s.nonce) p)) })) :=
  checkedMessage_cases s _

/-- Everything OPEN can do. -/
theorem execOpen_cases (s : State) :
    (s.keyValid = false ∧ execOpen s = .next (complete .noKey s)) ∨
    (s.keyValid = true ∧ s.cfg.msgBufBytes < s.len.toNat ∧ execOpen s = .next (complete .badLength s)) ∨
    (s.keyValid = true ∧ s.len.toNat ≤ s.cfg.msgBufBytes ∧ memRead s.buf 0 s.len.toNat = none ∧
      execOpen s = .fault .messageUnwritten) ∨
    (s.keyValid = true ∧ s.len.toNat ≤ s.cfg.msgBufBytes ∧ ∃ c, memRead s.buf 0 s.len.toNat = some c ∧
      ((authTag s.rk c = unwords s.tag ∧ execOpen s = .next (complete .ok { s with
          buf := memWrite s.buf 0 (keystreamXor s.rk (nonceBits s.nonce) c) })) ∨
       (authTag s.rk c ≠ unwords s.tag ∧ execOpen s = .next (complete .authFail s)))) := by
  have h := checkedMessage_cases s fun c =>
    if ctEqual (authTag s.rk c) (unwords s.tag) then
      .next (complete .ok { s with buf := memWrite s.buf 0 (keystreamXor s.rk (nonceBits s.nonce) c) })
    else raiseError .authFail s
  rcases h with h | h | h | ⟨hk, hl, c, hc, h⟩
  · exact .inl h
  · exact .inr (.inl h)
  · exact .inr (.inr (.inl h))
  · refine .inr (.inr (.inr ⟨hk, hl, c, hc, ?_⟩))
    by_cases ht : authTag s.rk c = unwords s.tag
    · exact .inl ⟨ht, by rw [execOpen, h, if_pos ((ctEqual_iff _ _).2 ht)]⟩
    · exact .inr ⟨ht, by rw [execOpen, h, if_neg (by rwa [ctEqual_iff])]; rfl⟩

/-! ### The multiplier's loop (R79) -/

/-- `X • Y` is the loop from `v = Y` and `z = 0`. -/
theorem gfMul_eq (x y : Block) : gfMul x y = gfLoop x 128 y 0 := rfl

/-- Multiplication by x distributes over XOR. -/
theorem gfShift_xor (a b : Block) : gfShift (a ^^^ b) = gfShift a ^^^ gfShift b := by
  simp only [gfShift, BitVec.getLsbD_xor, BitVec.ushiftRight_xor_distrib]
  cases a.getLsbD 0 <;> cases b.getLsbD 0 <;> simp
  · ac_rfl
  · ac_rfl
  · rw [show a >>> 1 ^^^ gfR ^^^ (b >>> 1 ^^^ gfR) = a >>> 1 ^^^ b >>> 1 ^^^ (gfR ^^^ gfR) by ac_rfl]
    simp

/-- The accumulator of the loop only adds. -/
theorem gfLoop_accumulator (x : Block) (n : Nat) (v z : Block) : gfLoop x n v z = z ^^^ gfLoop x n v 0 := by
  induction n generalizing v z with
  | zero => simp [gfLoop]
  | succ n ih =>
    simp only [gfLoop]
    rw [ih (gfShift v) (if x.getLsbD n then z ^^^ v else z), ih (gfShift v) (if x.getLsbD n then 0 ^^^ v else 0)]
    split <;> simp [BitVec.xor_assoc]

end Sys2Proof.Machine
end

