-- ==== Sys2Proof/Laws/Decode.lean ====
section
/-! SUPPORT. The fields of a command word, and what the decoder and the encoder do with them. -/

namespace Sys2Proof

/-- A command word is RSV above OPC (R49). -/
theorem append_fields (w : Word) : rsvField w ++ opcField w = w := by
  apply BitVec.eq_of_getLsbD_eq
  intro i hi
  simp [rsvField, opcField]
  grind

/-- The value of a command word by its fields. -/
theorem toNat_fields (w : Word) : w.toNat = (rsvField w).toNat * 2 ^ 8 + (opcField w).toNat := by
  conv_lhs => rw [← append_fields w]
  rw [BitVec.toNat_append, ← Nat.shiftLeft_add_eq_or_of_lt (opcField w).isLt, Nat.shiftLeft_eq]

@[simp] theorem rsvField_encode (i : Instr) : rsvField (encode i) = 0 := by cases i <;> rfl

@[simp] theorem opcField_encode (i : Instr) : opcField (encode i) = opcOf i := by cases i <;> rfl

theorem decodeOpc_opcOf (i : Instr) : decodeOpc (opcOf i).toNat = .ok i := by cases i <;> rfl

/-- The opcode map answers a command only for that command's opcode. -/
theorem decodeOpc_eq_ok {n : Nat} {i : Instr} (h : decodeOpc n = .ok i) : n = (opcOf i).toNat := by
  simp only [decodeOpc] at h
  split at h <;> cases h <;> rfl

theorem decodeOpc_le {n : Nat} (h : n ≤ 5) : ∃ i, decodeOpc n = .ok i := by
  have : n = 0 ∨ n = 1 ∨ n = 2 ∨ n = 3 ∨ n = 4 ∨ n = 5 := by omega
  rcases this with rfl | rfl | rfl | rfl | rfl | rfl <;> exact ⟨_, rfl⟩

theorem decodeOpc_gt {n : Nat} (h : 5 < n) : decodeOpc n = .error .unknownOpcode := by
  simp only [decodeOpc]
  split <;> first | omega | rfl

/-- A word decodes to a command only if it is that command's word (R50). -/
theorem eq_encode_of_decode {w : Word} {i : Instr} (h : decode w = .ok i) : w = encode i := by
  unfold decode at h
  split at h
  · next h0 =>
    have ho : opcField w = opcOf i := BitVec.eq_of_toNat_eq (decodeOpc_eq_ok h)
    rw [← append_fields w, h0, ho]
    rfl
  · cases h

end Sys2Proof
end

