-- ==== Sys2Proof/Laws/HostPort.lean ====
section
/-! SUPPORT. The host port: what a host step can do, said once, and the equations of its three kinds of answers. -/

namespace Sys2Proof.Machine

theorem hostStep_unsupported {t : HostTx} (h : ¬ t.supported) (s : State) : hostStep t s = .next (answer .slvErr s) := by
  simp only [hostStep, if_neg h]

theorem hostStep_outside {t : HostTx} {s : State} (h : t.supported) (hp : targetAt s.cfg t.off = none) :
    hostStep t s = .next (answer .slvErr s) := by
  simp only [hostStep, if_pos h, hp]

theorem hostStep_write {t : HostTx} {s : State} {p : Target} (h : t.supported) (hp : targetAt s.cfg t.off = some p)
    (hd : t.dir = .wr) : hostStep t s = .next (answer .okay (writeTarget p t.wdata s)) := by
  simp only [hostStep, if_pos h, hp, hd]

theorem hostStep_read {t : HostTx} {s : State} {p : Target} {v : Word} (h : t.supported)
    (hp : targetAt s.cfg t.off = some p) (hd : t.dir = .rd) (hv : readTarget p s = some v) :
    hostStep t s = .next (answer (.data v) s) := by
  simp only [hostStep, if_pos h, hp, hd, hv]

theorem hostStep_unwritten {t : HostTx} {s : State} {p : Target} (h : t.supported)
    (hp : targetAt s.cfg t.off = some p) (hd : t.dir = .rd) (hv : readTarget p s = none) :
    hostStep t s = .fault .hostReadUnwritten := by
  simp only [hostStep, if_pos h, hp, hd, hv]

/-- Everything a host step can do (R35 to R38, R47). -/
theorem hostStep_cases (t : HostTx) (s : State) :
    ((¬ t.supported ∨ targetAt s.cfg t.off = none) ∧ hostStep t s = .next (answer .slvErr s)) ∨
    (t.supported ∧ ∃ p, targetAt s.cfg t.off = some p ∧
      ((t.dir = .wr ∧ hostStep t s = .next (answer .okay (writeTarget p t.wdata s))) ∨
       (t.dir = .rd ∧ ∃ v, readTarget p s = some v ∧ hostStep t s = .next (answer (.data v) s)) ∨
       (t.dir = .rd ∧ readTarget p s = none ∧ hostStep t s = .fault .hostReadUnwritten))) := by
  by_cases h : t.supported
  · cases hp : targetAt s.cfg t.off with
    | none => exact .inl ⟨.inr rfl, hostStep_outside h hp⟩
    | some p =>
      refine .inr ⟨h, p, rfl, ?_⟩
      cases hd : t.dir with
      | wr => exact .inl ⟨rfl, hostStep_write h hp hd⟩
      | rd =>
        cases hv : readTarget p s with
        | some v => exact .inr (.inl ⟨rfl, v, rfl, hostStep_read h hp hd hv⟩)
        | none => exact .inr (.inr ⟨rfl, rfl, hostStep_unwritten h hp hd hv⟩)
  · exact .inl ⟨.inl h, hostStep_unsupported h s⟩

/-- A read has no value only at a BUF word, while idle, with an unwritten byte (R47). -/
theorem readTarget_eq_none {p : Target} {s : State} :
    readTarget p s = none ↔ ∃ w, p = .buf w ∧ s.busy = false ∧ bufWord s.buf w = none := by
  cases p <;> simp [readTarget] <;> cases s.busy <;> simp

/-- Below 0x1000 an offset names a register or a reserved place (R34). -/
theorem targetAt_register (c : Config) {off : Nat} (h : off < 0x1000) : targetAt c off = some (registerAt (off / 4)) := by
  simp [targetAt, h]

/-- Inside the BUF window an offset names a BUF word (R34, R40). -/
theorem targetAt_buf (c : Config) {off : Nat} (h : 0x1000 ≤ off) (h' : off < 0x1000 + c.msgBufBytes) :
    targetAt c off = some (.buf ((off - 0x1000) / 4)) := by
  simp [targetAt, show ¬ off < 0x1000 by omega, h']

/-- Beyond the map an offset names nothing (R36). -/
theorem targetAt_outside (c : Config) {off : Nat} (h : 0x1000 + c.msgBufBytes ≤ off) : targetAt c off = none := by
  simp [targetAt, show ¬ off < 0x1000 by omega, show ¬ off < 0x1000 + c.msgBufBytes by omega]

/-- No register offset names a BUF word. -/
theorem registerAt_ne_buf (i w : Nat) : registerAt i ≠ .buf w := by
  unfold registerAt
  split <;> simp

/-- An offset names BUF word `w` exactly when it lies in the window and is that word's (R34, R40). -/
theorem targetAt_eq_buf {c : Config} {off w : Nat} :
    targetAt c off = some (.buf w) ↔ 0x1000 ≤ off ∧ off < 0x1000 + c.msgBufBytes ∧ w = (off - 0x1000) / 4 := by
  by_cases h : off < 0x1000
  · simp [targetAt_register c h, registerAt_ne_buf]; omega
  · by_cases h' : off < 0x1000 + c.msgBufBytes
    · rw [targetAt_buf c (show 0x1000 ≤ off by omega) h']; simp [h', eq_comm]; omega
    · rw [targetAt_outside c (show 0x1000 + c.msgBufBytes ≤ off by omega)]; simp; omega

/-- Everything a supported write can do (R38): the STATUS write, nothing at all, the drop with OVR <- 1 while BUSY = 1, the
start of a command while idle, or a store to the operand registers or to BUF while idle. -/
theorem writeTarget_cases (p : Target) (v : Word) (s : State) :
    (p = .status ∧ writeTarget p v s = writeStatus v s) ∨
    (p ≠ .status ∧ writeTarget p v s = s) ∨
    (p ≠ .status ∧ s.busy = true ∧ writeTarget p v s = { s with ovr := true }) ∨
    (s.busy = false ∧ p = .cmd ∧ writeTarget p v s = { s with cmd := v, busy := true }) ∨
    (s.busy = false ∧ p ≠ .status ∧ ∃ l k n d g m, (m = s.buf ∨ ∃ w, p = .buf w ∧ m = writeBufWord s.buf w v) ∧
      writeTarget p v s = { s with len := l, key := k, nonce := n, din := d, tag := g, buf := m }) := by
  rcases Bool.eq_false_or_eq_true s.busy with hb | hb
  · cases p <;> simp [writeTarget, hb]
  · cases p with
    | status => exact .inl ⟨rfl, rfl⟩
    | id => exact .inr (.inl ⟨by simp, rfl⟩)
    | dout => exact .inr (.inl ⟨by simp, rfl⟩)
    | reserved => exact .inr (.inl ⟨by simp, rfl⟩)
    | cmd => exact .inr (.inr (.inr (.inl ⟨hb, rfl, by simp [writeTarget, hb]⟩)))
    | _ =>
      refine .inr (.inr (.inr (.inr ⟨hb, by simp, ?_⟩)))
      simp only [writeTarget, storeIfIdle_idle _ hb]
      first
        | exact ⟨_, _, _, _, _, _, .inl rfl, rfl⟩
        | exact ⟨_, _, _, _, _, _, .inr ⟨_, rfl, rfl⟩, rfl⟩

/-- An aligned register offset is one of the first 24 words, or it names a reserved place (R34). -/
theorem registerOffset_cases {off : Nat} (h4 : off % 4 = 0) (h : off < 0x1000) :
    (∃ i, i < 24 ∧ off = 4 * i) ∨ (0x60 ≤ off ∧ registerAt (off / 4) = .reserved) := by
  by_cases h' : off < 0x60
  · exact .inl ⟨off / 4, by omega, by omega⟩
  · right
    refine ⟨by omega, ?_⟩
    unfold registerAt
    split <;> first | omega | rfl

/-- Only offset 0x008 names CMD (R34). -/
theorem off_of_targetAt_cmd {c : Config} {off : Nat} (h4 : off % 4 = 0) (h : targetAt c off = some .cmd) : off = 0x008 := by
  unfold targetAt at h
  split at h
  · next hl =>
    rcases registerOffset_cases h4 hl with ⟨i, hi, ho⟩ | ⟨_, hr⟩
    · rw [ho, show 4 * i / 4 = i by omega] at h
      interval_cases i <;> simp [registerAt] at h
      exact ho
    · simp [hr] at h
  · split at h <;> simp at h

/-- Only offset 0x004 names STATUS (R34). -/
theorem off_of_targetAt_status {c : Config} {off : Nat} (h4 : off % 4 = 0) (h : targetAt c off = some .status) :
    off = 0x004 := by
  unfold targetAt at h
  split at h
  · next hl =>
    rcases registerOffset_cases h4 hl with ⟨i, hi, ho⟩ | ⟨_, hr⟩
    · rw [ho, show 4 * i / 4 = i by omega] at h
      interval_cases i <;> simp [registerAt] at h
      exact ho
    · simp [hr] at h
  · split at h <;> simp at h

end Sys2Proof.Machine
end

