-- ==== Sys2Proof/Laws/PerInstr.lean ====
section
/-! SUPPORT. Statements made per command (LAWS.json). `EncodingFields`: a command is well-formed, its word has RSV = 0 and
an OPC of the map (R49, R50). -/

namespace Sys2Proof.Laws.EncodingFields

/-- The word of a command lies inside the opcode map. -/
def Statement (i : Instr) : Prop := i.wf ∧ rsvField (encode i) = 0 ∧ (opcField (encode i)).toNat ≤ 5

theorem nop : Statement .nop := by unfold Statement; decide

theorem keysched : Statement .keysched := by unfold Statement; decide

theorem encblk : Statement .encblk := by unfold Statement; decide

theorem decblk : Statement .decblk := by unfold Statement; decide

theorem sealMsg : Statement .sealMsg := by unfold Statement; decide

theorem openMsg : Statement .openMsg := by unfold Statement; decide

end Sys2Proof.Laws.EncodingFields
end

