-- ==== Sys2Proof/Laws/Step.lean ====
section
/-! SUPPORT. What a step does, by whose turn it is, and everything a command can do, said once. -/

namespace Sys2Proof.Machine

theorem step_nil {s : State} (h : s.inputs = []) : step s = engineTurn s := by simp only [step, h]

theorem step_cons {s : State} {i : Input} {rest : List Input} (h : s.inputs = i :: rest) :
    step s = takeTurn i (withInputs rest s) := by
  simp only [step, h]

theorem step_host {s : State} {t : HostTx} {rest : List Input} (h : s.inputs = .host t :: rest) :
    step s = hostStep t (withInputs rest s) := step_cons h

theorem step_engine {s : State} {rest : List Input} (h : s.inputs = .engine :: rest) :
    step s = engineTurn (withInputs rest s) := step_cons h

theorem step_reset {s : State} {rest : List Input} (h : s.inputs = .reset :: rest) :
    step s = .next (resetStep (withInputs rest s)) := step_cons h

@[simp] theorem withInputs_self (s : State) : withInputs s.inputs s = s := rfl

theorem withInputs_nil {s : State} (h : s.inputs = []) : withInputs [] s = s := by
  conv_rhs => rw [← withInputs_self s, h]

theorem engineTurn_busy {s : State} (h : s.busy = true) : engineTurn s = engineStep s := by simp [engineTurn, h]

theorem engineTurn_idle {s : State} (h : s.busy = false) : engineTurn s = .next s := by simp [engineTurn, h]

theorem engineStep_ok {s : State} {i : Instr} (h : decode s.cmd = .ok i) : engineStep s = exec i s := by
  simp only [engineStep, h]

theorem engineStep_error {s : State} {r : DecodeReject} (h : decode s.cmd = .error r) :
    engineStep s = .next (complete .illegalCmd s) := by
  simp only [engineStep, h]
  rfl

/-- Everything a command can do: it completes with an error code and no other effect, it faults on an unwritten message
byte, or it has the effect of its rule. -/
theorem exec_cases (i : Instr) (s : State) :
    (∃ e : ErrCode, (e = .noKey ∨ e = .badLength ∨ e = .authFail) ∧ exec i s = .next (complete e s)) ∨
    ((i = .sealMsg ∨ i = .openMsg) ∧ s.keyValid = true ∧ s.len.toNat ≤ s.cfg.msgBufBytes ∧
      memRead s.buf 0 s.len.toNat = none ∧ exec i s = .fault .messageUnwritten) ∨
    (i = .nop ∧ exec i s = .next (complete .ok s)) ∨
    (i = .keysched ∧
      exec i s = .next (complete .ok { s with rk := schedule (unwords s.key), keyValid := true })) ∨
    ((i = .encblk ∨ i = .decblk) ∧ ∃ d, exec i s = .next (complete .ok { s with dout := d })) ∨
    ((i = .sealMsg ∨ i = .openMsg) ∧ s.len.toNat ≤ s.cfg.msgBufBytes ∧ ∃ bs g, bs.length = s.len.toNat ∧
      (i = .openMsg → g = s.tag) ∧
      exec i s = .next (complete .ok { s with buf := memWrite s.buf 0 bs, tag := g })) := by
  cases i with
  | nop => exact .inr (.inr (.inl ⟨rfl, rfl⟩))
  | keysched => exact .inr (.inr (.inr (.inl ⟨rfl, rfl⟩)))
  | encblk =>
    rcases Bool.eq_false_or_eq_true s.keyValid with h | h
    · exact .inr (.inr (.inr (.inr (.inl ⟨.inl rfl, _, execEncblk_keyed h⟩))))
    · exact .inl ⟨.noKey, .inl rfl, execEncblk_unkeyed h⟩
  | decblk =>
    rcases Bool.eq_false_or_eq_true s.keyValid with h | h
    · exact .inr (.inr (.inr (.inr (.inl ⟨.inr rfl, _, execDecblk_keyed h⟩))))
    · exact .inl ⟨.noKey, .inl rfl, execDecblk_unkeyed h⟩
  | sealMsg =>
    rcases execSeal_cases s with ⟨_, h⟩ | ⟨_, _, h⟩ | ⟨hk, hl, hm, h⟩ | ⟨_, hl, p, hp, h⟩
    · exact .inl ⟨.noKey, .inl rfl, h⟩
    · exact .inl ⟨.badLength, .inr (.inl rfl), h⟩
    · exact .inr (.inl ⟨.inl rfl, hk, hl, hm, h⟩)
    · exact .inr (.inr (.inr (.inr (.inr ⟨.inl rfl, hl, _, _, by simp [memRead_length hp], by simp, h⟩))))
  | openMsg =>
    rcases execOpen_cases s with ⟨_, h⟩ | ⟨_, _, h⟩ | ⟨hk, hl, hm, h⟩ | ⟨_, hl, c, hc, ⟨_, h⟩ | ⟨_, h⟩⟩
    · exact .inl ⟨.noKey, .inl rfl, h⟩
    · exact .inl ⟨.badLength, .inr (.inl rfl), h⟩
    · exact .inr (.inl ⟨.inr rfl, hk, hl, hm, h⟩)
    · exact .inr (.inr (.inr (.inr (.inr ⟨.inr rfl, hl, _, s.tag, by simp [memRead_length hc], fun _ => rfl, h⟩))))
    · exact .inl ⟨.authFail, .inr (.inr rfl), h⟩

/-- Everything the engine's turn can do (R51, R108). -/
theorem engineTurn_cases (s : State) :
    (s.busy = false ∧ engineTurn s = .next s) ∨
    (s.busy = true ∧ ∃ r, decode s.cmd = .error r ∧ engineTurn s = .next (complete .illegalCmd s)) ∨
    (s.busy = true ∧ ∃ i, decode s.cmd = .ok i ∧ engineTurn s = exec i s) := by
  rcases Bool.eq_false_or_eq_true s.busy with hb | hb
  · right
    cases hd : decode s.cmd with
    | error r => exact .inl ⟨hb, r, rfl, by rw [engineTurn_busy hb, engineStep_error hd]⟩
    | ok i => exact .inr ⟨hb, i, rfl, by rw [engineTurn_busy hb, engineStep_ok hd]⟩
  · exact .inl ⟨hb, engineTurn_idle hb⟩

end Sys2Proof.Machine
end

