-- ==== Sys2Proof/Laws/Safety.lean ====
section
/-! SUPPORT. Whose turn a step is, and runs of several steps. -/

namespace Sys2Proof.Machine

/-- The next turn is the engine's, a reset's or the host's (R13). -/
theorem turn_cases (s : State) :
    s.engineNext ∨ (∃ rest, s.inputs = .reset :: rest) ∨ ∃ x rest, s.inputs = .host x :: rest := by
  rcases h : s.inputs with _ | ⟨_ | _ | _, r⟩
  · exact .inl (.inl h)
  · exact .inr (.inr ⟨_, _, rfl⟩)
  · exact .inl (.inr ⟨_, h⟩)
  · exact .inr (.inl ⟨_, rfl⟩)

theorem not_engineNext_host {s : State} {x : HostTx} {rest : List Input} (h : s.inputs = .host x :: rest) :
    ¬ s.engineNext := by
  rintro (h' | ⟨r, h'⟩) <;> simp [h] at h'

theorem not_engineNext_reset {s : State} {rest : List Input} (h : s.inputs = .reset :: rest) : ¬ s.engineNext := by
  rintro (h' | ⟨r, h'⟩) <;> simp [h] at h'

/-- The engine's turn, whether the schedule names it or has run out. -/
theorem step_engineNext {s : State} (h : s.engineNext) : step s = engineTurn (withInputs s.laterInputs s) := by
  rcases h with h | ⟨r, h⟩
  · rw [step_nil h]
    simp [State.laterInputs, h, withInputs_nil h]
  · rw [step_engine h]
    simp [State.laterInputs, h]

@[simp] theorem runFor_zero (s : State) : runFor 0 s = .next s := rfl

theorem runFor_next {k : Nat} {s t : State} (h : step s = .next t) : runFor (k + 1) s = runFor k t := by
  simp only [runFor, h]

theorem runFor_fault {k : Nat} {s : State} {f : Fault} (h : step s = .fault f) : runFor (k + 1) s = .fault f := by
  simp only [runFor, h]

theorem runFor_one (s : State) : runFor 1 s = step s := by
  cases h : step s <;> simp [runFor, h]

/-- A run of `j + k` steps is `j` steps and then `k` more. -/
theorem runFor_add {j k : Nat} {s t : State} (h : runFor j s = .next t) : runFor (j + k) s = runFor k t := by
  induction j generalizing s with
  | zero => cases h; simp
  | succ j ih =>
    simp only [runFor] at h
    split at h
    · next u hu => rw [Nat.succ_add, runFor_next hu, ih h]
    · cases h
    · cases h

end Sys2Proof.Machine
end

