-- ==== Sys2Proof/Tests/Slice0.lean ====
section
/-! SUPPORT. Tests, each one step or one function on a small state, with the value the spec prints (spec/95_test_vectors.md
V1 to V34, or the rule named). Then, for every obligation with hypotheses, a state and operands that meet them together. -/

namespace Sys2Proof.Tests

-- Each `decide +kernel` waits for the declarations before it: elaborating one at a time keeps the threads few.
set_option Elab.async false

open Sys2Proof Sys2Proof.Machine

/-! ### Small states -/

/-- KEY_A, N_A and the 20-byte ciphertext of V23. -/
def keyA : Block := 0x0123456789abcdeffedcba9876543210
def nonceA : Triple := ⟨0xCAFEBABE, 0xFACEDBAD, 0xDECAF888⟩
def plain20 : List Byte := (List.range 20).map (BitVec.ofNat 8)
def cipher20 : List Byte :=
  [0xa6, 0x81, 0x2b, 0x29, 0xe9, 0xf1, 0x20, 0x82, 0x33, 0xa7] ++ [0x6d, 0x32, 0xd5, 0x82, 0x40, 0x3f, 0x53, 0xaf, 0xc2, 0x3b]

/-- Idle with KEY_A's schedule and nonce N_A. -/
def keyed : State := { State.reset with rk := schedule keyA, keyValid := true, key := words keyA, nonce := nonceA }

/-- `keyed`, with a message in BUF. -/
def withMsg (bs : List Byte) : State := { keyed with len := BitVec.ofNat 32 bs.length, buf := memWrite [] 0 bs }

/-- The end state of program P2: the sealed 20-byte message and its tag. -/
def sealed20 : State := { withMsg cipher20 with tag := ⟨0xC1AD5224, 0xA291BCAC, 0x2B7F967A, 0xD8A16AAE⟩ }

/-- A command pending, with the engine's turn next. -/
def pending (s : State) (w : Word) : State := { s with cmd := w, busy := true, inputs := [.engine] }

/-- A transaction next. -/
def issuing (s : State) (t : HostTx) : State := { s with inputs := [.host t] }

def nextOf (r : Result) : Option State :=
  match r with
  | .next s => some s
  | .fault _ => none
  | .refused _ => none

/-- STATUS after a step, if it is a next state. -/
def statusOf (r : Result) : Option Word := (nextOf r).map statusWord

/-- The newest answer after a step. -/
def answerOf (r : Result) : Option Response := (nextOf r).bind (·.answers.head?)

theorem exists_next {α : Type} {r : Result} {f : State → α} {a : α} (h : (nextOf r).map f = some a) :
    ∃ t, r = .next t ∧ f t = a := by
  cases r <;> simp_all [nextOf]

/-! ### Well-formedness -/

theorem test_wf_config : Config.default.wf ∧ Config.wf ⟨16⟩ ∧ Config.wf ⟨2 ^ 24⟩ := by decide
theorem test_wf_config_not_a_multiple : ¬ Config.wf ⟨17⟩ := by decide
theorem test_wf_config_too_small : ¬ Config.wf ⟨0⟩ := by decide
theorem test_wf_config_too_large : ¬ Config.wf ⟨2 ^ 24 + 16⟩ := by decide
theorem test_wf_tx : HostTx.wf Config.default (rdAt 0x1FFC) := by decide +kernel
theorem test_wf_tx_misaligned : ¬ HostTx.wf Config.default (rdAt 0x001) := by decide +kernel
theorem test_wf_tx_narrow : ¬ HostTx.wf Config.default (wrByteAt 0x010 0x55) := by decide +kernel
theorem test_wf_tx_too_wide : ¬ HostTx.wf Config.default (rdAt 0x2000) := by decide +kernel
/-- R8: 13 bits for the default. -/
theorem test_host_addr_bits : Config.default.hostAddrBits = 13 ∧ Config.hostAddrBits ⟨16⟩ = 13 := by decide +kernel

/-! ### Decoding: the words of R50 bit by bit, and the illegal words of V31 -/

theorem test_decode_nop : decode 0b00000000000000000000000000000000 = .ok .nop := by decide
theorem test_decode_keysched : decode 0b00000000000000000000000000000001 = .ok .keysched := by decide
theorem test_decode_encblk : decode 0b00000000000000000000000000000010 = .ok .encblk := by decide
theorem test_decode_decblk : decode 0b00000000000000000000000000000011 = .ok .decblk := by decide
theorem test_decode_seal : decode 0b00000000000000000000000000000100 = .ok .sealMsg := by decide
theorem test_decode_open : decode 0b00000000000000000000000000000101 = .ok .openMsg := by decide
theorem test_decode_reserved : decode 0x00000102 = .error .reservedBitsSet ∧ decode 0x00000100 = .error .reservedBitsSet ∧
    decode 0x80000001 = .error .reservedBitsSet ∧ decode 0x00000107 = .error .reservedBitsSet := by decide
theorem test_decode_unknown : decode 0x00000006 = .error .unknownOpcode ∧ decode 0x000000FF = .error .unknownOpcode := by
  decide
theorem test_decode_table_word : decodeTableWord 32 5 = some .openMsg ∧ decodeTableWord 32 6 = none := by decide

/-! ### The pure functions -/

/-- V7. -/
theorem test_sbox : [0x00, 0x01, 0x10, 0x23, 0x45, 0x67, 0x80, 0xFE, 0xFF].map sbox =
    [0xD6, 0x90, 0x2B, 0xF4, 0x73, 0xA2, 0xEA, 0x39, 0x48] := by decide +kernel
/-- V8, the last row. -/
theorem test_word_transforms : tau 0x01234567 = 0x90F473A2 ∧ diffuse 0x01234567 = 0xFA26EB37 ∧
    roundT 0x01234567 = 0x6EF180C9 ∧ diffuseKey 0x01234567 = 0xDA0F34E1 ∧ keyT 0x01234567 = 0xCFC85B85 := by
  decide +kernel
/-- V14, and the last entry of R70's table. -/
theorem test_ck : ck 0 = 0x00070E15 ∧ ck 1 = 0x1C232A31 ∧ ck 9 = 0xFC030A11 ∧ ck 31 = 0x646B7279 := by decide
/-- V16. -/
theorem test_counter : counterBlock (nonceBits nonceA) 0 = 0xcafebabefacedbaddecaf88800000001 ∧
    counterBlock (nonceBits nonceA) 0xFFFFFFFF = 0xcafebabefacedbaddecaf88800000000 ∧
    inc32 0xcafebabefacedbaddecaf888ffffffff = 0xcafebabefacedbaddecaf88800000000 ∧
    inc32 0x000000000000000000000000000000ff = 0x00000000000000000000000000000100 := by decide
/-- V17. -/
theorem test_len_block : lenBlock 17 = 0x88 ∧ lenBlock 4096 = 0x8000 := by decide
/-- V18, the reduced products, and the product of GCM test case 2. -/
theorem test_gf_mul : gfMul 1 0x40000000000000000000000000000000 = 0xe1000000000000000000000000000000 ∧
    gfMul 1 1 = 0xe6080000000000000000000000000003 ∧
    gfMul 0x0388dace60b6a392f328c2b971b2fe78 0x66e94bd4ef8a2c3b884cfa59ca342b2e =
      0x5e2ec746917062882c85b0685353deb7 := by decide +kernel

/-! ### The commands -/

/-- V31: NOP clears ERR. -/
theorem test_nop : statusOf (exec .nop { keyed with err := 0x1, busy := true }) = some 0x00000002 := by decide +kernel

/-- V4. -/
theorem test_keysched : (nextOf (exec .keysched { State.reset with key := words keyA })).map
    (fun s => (s.rk[0], s.rk[1], s.rk[31], statusWord s)) = some (0xF12186F9, 0x41662B61, 0x9124A012, 0x00000002) := by
  decide +kernel
/-- V9. -/
theorem test_keysched_zero_key : (nextOf (exec .keysched State.reset)).map (fun s => (s.rk[0], s.rk[31])) =
    some (0x45603B23, 0xA16CA108) := by decide +kernel

/-- V1. -/
theorem test_encblk : (nextOf (exec .encblk { keyed with din := words keyA })).map (fun s => (s.dout, statusWord s)) =
    some (⟨0x681EDF34, 0xD206965E, 0x86B3E94F, 0x536E4246⟩, 0x00000002) := by decide +kernel
/-- V11. -/
theorem test_encblk_without_key : statusOf (exec .encblk State.reset) = some 0x00000200 := by decide +kernel

/-- V2. -/
theorem test_decblk : (nextOf (exec .decblk { keyed with din := ⟨0x681EDF34, 0xD206965E, 0x86B3E94F, 0x536E4246⟩ })).map
    (fun s => (s.dout, statusWord s)) =
    some (⟨0x01234567, 0x89ABCDEF, 0xFEDCBA98, 0x76543210⟩, 0x00000002) := by decide +kernel
/-- V9: D is not E. -/
theorem test_decblk_zero_key : (nextOf (exec .decblk { State.reset with rk := schedule 0, keyValid := true })).map (·.dout) =
    some ⟨0x9e83015a, 0xe25f6278, 0x3225354e, 0x126ecc6e⟩ := by decide +kernel

/-- V23: a message with a partial last block. -/
theorem test_seal : (nextOf (exec .sealMsg (withMsg plain20))).map (fun s => (memRead s.buf 0 20, s.tag, s.buf.read 20)) =
    some (some cipher20, sealed20.tag, none) := by decide +kernel
/-- V21: the empty message, with BUF unwritten. -/
theorem test_seal_empty : (nextOf (exec .sealMsg keyed)).map (fun s => (s.tag, s.buf)) =
    some (⟨0x2677f46b, 0x09c122cc, 0x97553310, 0x5bd4a22a⟩, []) := by decide +kernel

/-- V27: the wrong nonce goes unnoticed. -/
theorem test_open_wrong_nonce :
    (nextOf (exec .openMsg { sealed20 with nonce := ⟨0xCAFEBABE, 0xFACEDBAD, 0xDECAF889⟩ })).map
      (fun s => (bufWord s.buf 0, bufWord s.buf 4, statusWord s)) =
    some (some 0x66adf7fa, some 0x7c2b39a4, 0x00000002) := by decide +kernel
/-- V25 and program P3: the last tag bit flipped. -/
theorem test_open_wrong_tag :
    (nextOf (exec .openMsg { sealed20 with tag := ⟨0xC1AD5224, 0xA291BCAC, 0x2B7F967A, 0xD8A16AAF⟩ })).map
      (fun s => (memRead s.buf 0 20, statusWord s)) = some (some cipher20, 0x00000102) := by decide +kernel

/-! ### The host port (V32, V33) -/

theorem test_read_id : answerOf (step (issuing State.reset (rd .id))) = some (.data 0x534D3401) := by decide +kernel
theorem test_read_key_is_zero : answerOf (step (issuing keyed (rd (.key 2)))) = some (.data 0) := by decide +kernel
theorem test_read_beyond_buf : answerOf (step (issuing State.reset (rdAt 0x2000))) = some .slvErr := by decide +kernel
theorem test_read_unwritten : step (issuing State.reset (rd (.buf 0))) = .fault .hostReadUnwritten := rfl
theorem test_write_last_buf_word : (nextOf (step (issuing State.reset (wrAt 0x1FFC 0xA1B2C3D4)))).map (·.buf) =
    some [(4092, 0xA1), (4093, 0xB2), (4094, 0xC3), (4095, 0xD4)] := by decide +kernel
theorem test_write_cmd_starts : (nextOf (step (issuing State.reset (command .sealMsg)))).map (fun s => (s.cmd, s.busy)) =
    some (4, true) := by decide +kernel
theorem test_write_dropped_while_busy :
    (nextOf (step (issuing { State.reset with busy := true, cmd := 4, len := 16 } (wr .len 0x20)))).map
      (fun s => (s.len, s.ovr)) = some (16, true) := by decide +kernel
theorem test_ignored_write_while_busy :
    (nextOf (step (issuing { State.reset with busy := true } (wr (.dout 0) 0)))).map (·.ovr) = some false := by
  decide +kernel
theorem test_status_write_clears_ovr :
    (nextOf (step (issuing { State.reset with ovr := true } (wr .status 4)))).map (·.ovr) = some false := by decide +kernel
theorem test_status_write_keeps_ovr :
    (nextOf (step (issuing { State.reset with ovr := true } (wr .status 0xFFFFFFFB)))).map (·.ovr) = some true := by
  decide +kernel

/-! ### Host programs (R54 to R56, P1, P4) -/

theorem test_ldkey : (ldKey keyA).map (fun t => (t.off, t.wdata)) =
    [(0x010, 0x01234567), (0x014, 0x89ABCDEF), (0x018, 0xFEDCBA98), (0x01C, 0x76543210)] := by decide
theorem test_ldbuf_pads : ldBuf 3 [0x10, 0x11, 0x12, 0x13, 0x14] = [wrAt 0x100C 0x10111213, wrAt 0x1010 0x14000000] := by
  decide
theorem test_narrow_forms : wrByteAt 0x010 0x55 = ⟨.wr, 0x010, 0, 0x55⟩ ∧ rdHalfAt 0x004 = ⟨.rd, 0x004, 1, 0⟩ := by decide
theorem test_rdtag : rdTag.map (·.off) = [0x050, 0x054, 0x058, 0x05C] ∧ (rdBuf 2 2).map (·.off) = [0x1008, 0x100C] := by
  decide
theorem test_wait_idle : waitIdleAgain 0x00000305 = true ∧ waitIdleAgain 0x00000006 = false := by decide

/-! ### The engine step and reset (V15, V30, V31, V34) -/

theorem test_fetch_word : (nextOf (step (State.reset.withFetchWord 32 1))).map (fun s => (s.rk[0], statusWord s)) =
    some (0x45603B23, 0x00000002) := by decide +kernel
theorem test_illegal_word_before_no_key : statusOf (step (pending State.reset 0x00000107)) = some 0x00000300 := by
  decide +kernel
theorem test_no_key_before_bad_length : statusOf (step (pending { State.reset with len := 0x1001 } 4)) = some 0x00000200 := by
  decide +kernel
theorem test_bad_length : statusOf (step (pending { keyed with len := 0xFFFFFFFF } 5)) = some 0x00000402 := by
  decide +kernel
theorem test_seal_unwritten_message :
    nextOf (step (pending { withMsg (plain20.take 4) with len := 16 } 4)) = none := by decide +kernel
theorem test_reset_discards_the_command :
    nextOf (step { pending keyed 1 with inputs := [.reset] }) = some State.reset := by decide +kernel

/-! ### Witnesses: the hypotheses of each obligation, met together

The boundary values of each clause stand in the witness of that clause. -/

theorem pending_engineNext (s : State) (w : Word) : (pending s w).engineNext := .inr ⟨[], rfl⟩

theorem witness_StepRunsTheDecodedCommand :
    (pending State.reset 5).engineNext ∧ (pending State.reset 5).busy = true ∧
      decode (pending State.reset 5).cmd = .ok .openMsg := ⟨pending_engineNext _ _, rfl, rfl⟩

/-- The schedule has run out (the other form of the engine's turn). -/
theorem witness_StepRunsTheDecodedCommand_end :
    let s := { pending State.reset 0 with inputs := [] }
    s.engineNext ∧ s.busy = true ∧ decode s.cmd = .ok .nop := ⟨.inl rfl, rfl, rfl⟩

theorem witness_IllegalWordCompletesWithIllegalCmd : ∀ n ∈ [0x06, 0xFF, 0x100, 0xFFFFFFFF],
    let s := pending State.reset (BitVec.ofNat 32 n)
    s.engineNext ∧ s.busy = true ∧ 0x06 ≤ s.cmd.toNat :=
  fun n hn => ⟨pending_engineNext _ _, rfl, by revert n; decide⟩

/-- The two kinds of illegal words, at the ends of their ranges. -/
theorem witness_IllegalWordsAreRejected : (0x100 ≤ (0x100 : Word).toNat ∧ 0x100 ≤ (0xFFFFFFFF : Word).toNat) ∧
    ((0x06 : Word).toNat = 0x06 ∧ (0xFF : Word).toNat = 0xFF) := by decide

theorem witness_EngineIsDisabledWhileIdle : State.reset.engineNext ∧ State.reset.busy = false := ⟨.inl rfl, rfl⟩

/-- Each of the five codes is left by some engine step. -/
theorem witness_EveryCodeHasItsCause :
    [pending State.reset 0, pending sealed20 5, pending State.reset 5, pending State.reset 6].map
      (fun s => (nextOf (engineStep s)).map (·.err)) = [some 0x0, some 0x0, some 0x2, some 0x3] ∧
    [pending (withMsg cipher20) 5, pending { keyed with len := 4097 } 4].map
      (fun s => (nextOf (engineStep s)).map (·.err)) = [some 0x1, some 0x4] := by decide +kernel

theorem witness_ErrorCompletionHasNoOtherEffect : ∃ t, engineStep (pending State.reset 6) = .next t ∧ t.err ≠ 0x0 :=
  ⟨_, rfl, by decide⟩

/-- The four clauses, at the ends of their ranges of words and of lengths. -/
theorem witness_ErrorPriority :
    (0x06 ≤ (pending State.reset 0x06).cmd.toNat) ∧
    (∀ n ∈ [0x02, 0x05], let s := pending State.reset (BitVec.ofNat 32 n)
      0x02 ≤ s.cmd.toNat ∧ s.cmd.toNat ≤ 0x05 ∧ s.keyValid = false) ∧
    (∀ n ∈ [0x04, 0x05], let s := pending { State.reset with keyValid := true, len := 4097 } (BitVec.ofNat 32 n)
      0x04 ≤ s.cmd.toNat ∧ s.cmd.toNat ≤ 0x05 ∧ s.keyValid = true ∧ s.cfg.msgBufBytes < s.len.toNat) ∧
    (let s := pending (withMsg cipher20) 5
     s.cmd.toNat = 0x05 ∧ s.keyValid = true ∧ s.len.toNat ≤ s.cfg.msgBufBytes ∧
      (∀ i, i < s.len.toNat → s.buf.read i = some (cipher20.getD i 0)) ∧
      unwords s.tag ≠ tagOf s.rk (cipher20.getD · 0) s.len.toNat) := by
  refine ⟨?_, ?_, ?_, ?_⟩ <;> decide +kernel

theorem witness_EncblkWritesTheCiphertext : { keyed with din := words keyA }.keyValid = true := rfl

theorem witness_DecblkWritesThePlaintext : { keyed with din := words keyA }.keyValid = true := rfl

def byteAt (bs : List Byte) (i : Nat) : Byte := bs.getD i 0

theorem witness_SealEncryptsAndAuthenticates : (withMsg plain20).keyValid = true ∧
    (withMsg plain20).len.toNat ≤ (withMsg plain20).cfg.msgBufBytes ∧
    ∀ i, i < (withMsg plain20).len.toNat → (withMsg plain20).buf.read i = some (byteAt plain20 i) := by
  decide +kernel

/-- A message that fills the smallest buffer, LEN = MSG_BUF_BYTES = 16. -/
theorem witness_SealEncryptsAndAuthenticates_full : let s := { withMsg (cipher20.take 16) with cfg := ⟨16⟩ }
    s.keyValid = true ∧ s.len.toNat = s.cfg.msgBufBytes ∧
    ∀ i, i < s.len.toNat → s.buf.read i = some (byteAt cipher20 i) := by decide +kernel

theorem witness_OpenDecryptsWhenTheTagMatches : sealed20.keyValid = true ∧
    sealed20.len.toNat ≤ sealed20.cfg.msgBufBytes ∧
    (∀ i, i < sealed20.len.toNat → sealed20.buf.read i = some (byteAt cipher20 i)) ∧
    unwords sealed20.tag = tagOf sealed20.rk (byteAt cipher20) sealed20.len.toNat := by decide +kernel

theorem witness_OpenRejectsAWrongTag : let s := withMsg cipher20
    s.keyValid = true ∧ s.len.toNat ≤ s.cfg.msgBufBytes ∧
    (∀ i, i < s.len.toNat → s.buf.read i = some (byteAt cipher20 i)) ∧
    unwords s.tag ≠ tagOf s.rk (byteAt cipher20) s.len.toNat := by decide +kernel

theorem witness_CipherCommandsNeedAKey :
    Instr.encblk ≠ .nop ∧ Instr.encblk ≠ .keysched ∧ Instr.openMsg ≠ .nop ∧ Instr.openMsg ≠ .keysched ∧
      State.reset.keyValid = false := by decide

theorem witness_MessageCommandsRejectABadLength : let s := { State.reset with keyValid := true, len := 4097 }
    s.keyValid = true ∧ s.cfg.msgBufBytes < s.len.toNat := by decide

/-- One byte of the message is unwritten. -/
theorem witness_MessageCommandsFaultOnUnwrittenBytes : let s := { withMsg cipher20 with len := 21 }
    s.keyValid = true ∧ s.len.toNat ≤ s.cfg.msgBufBytes ∧ ∃ a, a < s.len.toNat ∧ s.buf.read a = none :=
  ⟨rfl, by decide +kernel, 20, by decide, by decide +kernel⟩

theorem witness_RegisterCommandsFrame : ∀ i ∈ [Instr.nop, .keysched, .encblk, .decblk],
    i ≠ .sealMsg ∧ i ≠ .openMsg ∧ (nextOf (exec i keyed)).isSome := by decide +kernel

theorem witness_MessageCommandsFrame : ∀ i ∈ [Instr.sealMsg, .openMsg],
    (i = .sealMsg ∨ i = .openMsg) ∧ (nextOf (exec i sealed20)).isSome := by decide +kernel

theorem witness_TauSubstitutesEachLane : (0 : Nat) < 4 ∧ (3 : Nat) < 4 := by decide

theorem witness_DiffusionBits : (0 : Nat) < 32 ∧ (31 : Nat) < 32 := by decide

theorem witness_CipherRoundTrip : keyed.keyValid = true := rfl

/-- The first and the last block of a 20-byte message. -/
theorem witness_KeystreamBlocksAreDistinct : let s := withMsg plain20
    s.cfg.wf ∧ s.len.toNat ≤ s.cfg.msgBufBytes ∧ 0 < blockCount s.len.toNat ∧ 1 < blockCount s.len.toNat := by
  decide +kernel

/-- SEAL of 20 bytes, and of none, completes with OK. -/
theorem witness_OpenUndoesSeal : (∃ t, exec .sealMsg (withMsg plain20) = .next t ∧ t.err = 0x0) ∧
    (∃ t, exec .sealMsg keyed = .next t ∧ t.err = 0x0) :=
  ⟨exists_next (by decide +kernel), exists_next (by decide +kernel)⟩

theorem witness_SealTwiceGivesThePlaintextBack : ∃ t, exec .sealMsg (withMsg plain20) = .next t ∧ t.err = 0x0 :=
  witness_OpenUndoesSeal.1

theorem witness_EveryOtherTagFails : (∃ t, exec .openMsg sealed20 = .next t ∧ t.err = 0x0) ∧ zeroQuad ≠ sealed20.tag :=
  ⟨exists_next (by decide +kernel), by decide⟩

/-- OPEN that completes, with OK and with AUTH_FAIL. -/
theorem witness_OpenOutcomeIgnoresTheNonce : (∃ t, exec .openMsg sealed20 = .next t ∧ t.err = 0x0) ∧
    (∃ t, exec .openMsg (withMsg cipher20) = .next t ∧ t.err = 0x1) :=
  ⟨exists_next (by decide +kernel), exists_next (by decide +kernel)⟩

/-- Both outcomes of OPEN on the empty message. -/
theorem witness_EmptyMessage : keyed.keyValid = true ∧ keyed.len = 0 ∧ unwords keyed.tag ≠ encryptBlock keyed.rk 0 ∧
    unwords ⟨0x2677f46b, 0x09c122cc, 0x97553310, 0x5bd4a22a⟩ = encryptBlock keyed.rk 0 := by decide +kernel

/-- Every unsupported size, the misaligned offsets, and the first offset beyond the map. -/
theorem witness_UnsupportedTransactionsGetSlverr :
    (∀ z ∈ [0, 1, 3], (HostTx.mk .rd 0x004 z 0).size ≠ 2) ∧ (∀ o ∈ [1, 2, 3], (rdAt o).off % 4 ≠ 0) ∧
    0x1000 + State.reset.cfg.msgBufBytes ≤ (rdAt 0x2000).off ∧
    ∀ t, (issuing State.reset t).inputs = .host t :: [] :=
  ⟨by decide, by decide, by decide, fun _ => rfl⟩

/-- The register offsets at which the read column of R34 changes, and the last. -/
theorem witness_RegisterReads : ∀ o ∈ [0x000, 0x004, 0x010, 0x02C, 0x030, 0x040, 0x05C, 0x060, 0xFFC],
    (rdAt o).dir = .rd ∧ (rdAt o).size = 2 ∧ (rdAt o).off % 4 = 0 ∧ (rdAt o).off < 0x1000 ∧
      (issuing State.reset (rdAt o)).inputs = .host (rdAt o) :: [] := by decide

theorem witness_RegisterWrites : ∀ o ∈ [0x000, 0x004, 0x008, 0x00C, 0x010, 0x01C, 0x020, 0x02C, 0x040, 0x05C, 0x060, 0xFFC],
    (wrAt o 7).dir = .wr ∧ (wrAt o 7).size = 2 ∧ (wrAt o 7).off % 4 = 0 ∧ (wrAt o 7).off < 0x1000 ∧
      (issuing State.reset (wrAt o 7)).inputs = .host (wrAt o 7) :: [] := by decide

/-- The first BUF word written, and the last one unwritten: the two clauses. -/
theorem witness_BufWordReads :
    (let s := issuing sealed20 (rdAt 0x1000)
     s.inputs = .host (rdAt 0x1000) :: [] ∧ (rdAt 0x1000).off = 0x1000 + 4 * 0 ∧
       (rdAt 0x1000).off < 0x1000 + s.cfg.msgBufBytes ∧ s.busy = false ∧
       ∀ j, j < 4 → s.buf.read (4 * 0 + j) = some (byteAt cipher20 j)) ∧
    (let s := issuing sealed20 (rdAt 0x1FFC)
     (rdAt 0x1FFC).off = 0x1000 + 4 * 1023 ∧ (rdAt 0x1FFC).off < 0x1000 + s.cfg.msgBufBytes ∧ s.busy = false ∧
       s.buf.read (4 * 1023 + 0) = none) := by decide +kernel

theorem witness_BufWordWrites : ∀ w ∈ [0, 1023], let x := wrAt (0x1000 + 4 * w) 0xA1B2C3D4
    let s := issuing State.reset x
    s.inputs = .host x :: [] ∧ x.dir = .wr ∧ x.size = 2 ∧ x.off = 0x1000 + 4 * w ∧
      x.off < 0x1000 + s.cfg.msgBufBytes ∧ s.busy = false := by decide +kernel

theorem witness_BufWindowWhileBusy : ∀ o ∈ [0x1000, 0x1FFC], ∀ x ∈ [rdAt o, wrAt o 1],
    let s := issuing { State.reset with busy := true } x
    s.inputs = .host x :: [] ∧ x.size = 2 ∧ x.off % 4 = 0 ∧ 0x1000 ≤ x.off ∧ x.off < 0x1000 + s.cfg.msgBufBytes ∧
      s.busy = true := by decide +kernel

/-- A read with data, a read with SLVERR. -/
theorem witness_HostReadsChangeNothing : ∀ x ∈ [rdAt 0x000, rdAt 0x2000],
    (issuing State.reset x).inputs = .host x :: [] ∧ x.dir = .rd ∧ (nextOf (step (issuing State.reset x))).isSome := by
  decide +kernel

/-- Each of the four loads, on the idle core. -/
theorem witness_LoadPseudoInstructions : ∀ l ∈ [ldKey keyA, ldNonce (nonceBits nonceA), ldDin keyA, ldTag keyA],
    let s := { State.reset with inputs := l.map Input.host ++ [] }
    s.busy = false ∧ s.inputs = l.map Input.host ++ [] := by decide

/-- A load that ends at the end of BUF, with a padded last word. -/
theorem witness_LoadBufferPseudoInstruction : let bs : List Byte := [1, 2, 3, 4, 5]
    let s := { State.reset with inputs := (ldBuf 1022 bs).map Input.host ++ [] }
    s.busy = false ∧ 4 * 1022 + 4 * ((bs.length + 3) / 4) ≤ s.cfg.msgBufBytes ∧
      s.inputs = (ldBuf 1022 bs).map Input.host ++ [] := by decide

/-- Two transactions in the window; then the engine's turn, named or by the end of the schedule. -/
theorem witness_BusyWindowKeepsTheOperandSnapshot : ∀ later ∈ [[], [Input.engine]],
    let xs := [wr .len 0x20, rd .status]
    let s := { pending State.reset 4 with inputs := xs.map Input.host ++ later }
    s.busy = true ∧ s.inputs = xs.map Input.host ++ later ∧ (later = [] ∨ later = .engine :: []) := by decide

theorem witness_ResetStep : ({ pending keyed 1 with inputs := [.reset] }).inputs = .reset :: [] := rfl

/-- KEYSCHED changes RK, and so does a reset. -/
theorem witness_OnlyKeyschedAndResetChangeTheRoundKeys :
    (nextOf (step (pending State.reset 1))).map (decide <| ·.rk ≠ State.reset.rk) = some true ∧
    (nextOf (step { keyed with inputs := [.reset] })).map (decide <| ·.rk ≠ keyed.rk) = some true := by decide +kernel

/-- BUSY rises by a CMD write; it falls by an engine step and by a reset. -/
theorem witness_BusyChanges :
    (nextOf (step (issuing State.reset (command .nop)))).map (·.busy) = some true ∧
    (nextOf (step (pending State.reset 0))).map (·.busy) = some false ∧
    (nextOf (step { pending State.reset 0 with inputs := [.reset] })).map (·.busy) = some false := by decide +kernel

/-- OVR rises by a dropped write; it falls by a STATUS write and by a reset. -/
theorem witness_OverrunChanges :
    (nextOf (step (issuing { State.reset with busy := true } (wr .len 1)))).map (·.ovr) = some true ∧
    (nextOf (step (issuing { State.reset with ovr := true } (wr .status 4)))).map (·.ovr) = some false ∧
    (nextOf (step { State.reset with ovr := true, inputs := [.reset] })).map (·.ovr) = some false := by decide +kernel

/-- Both faults are reached. -/
theorem witness_FaultsComeOnlyFromUnwrittenBytes :
    step (issuing State.reset (rdAt 0x1FFC)) = .fault .hostReadUnwritten ∧
    step (pending { State.reset with keyValid := true, len := 1 } 5) = .fault .messageUnwritten := ⟨rfl, rfl⟩

/-- Two states that differ in KEY and RK only. -/
theorem witness_HostReadsRevealNoKeyMaterial : let xs := [rd (.key 0), rd .status]
    let s := { keyed with inputs := xs.map Input.host }
    let s' := { s with key := zeroQuad, rk := schedule 0 }
    hideSecrets s = hideSecrets s' ∧ s.inputs = xs.map Input.host ∧ s ≠ s' := by decide +kernel

theorem witness_EveryStepKeepsTheInvariant : State.reset.Inv ∧ ∃ t, step State.reset = .next t :=
  ⟨⟨by decide, rfl, by decide, by decide, by decide, fun _ => rfl⟩, _, rfl⟩

end Sys2Proof.Tests
end

section
/-! What one turn can change: one inversion lemma for the commands, one for the host step, and the frames that the claims
about the state record rest on. -/

namespace Sys2Proof.Machine

/-! ### Commands -/

/-- The shape of the state that a command leaves: it is completed, and RK and KEYVALID belong to KEYSCHED, DOUT to ENCBLK
and DECBLK, BUF and TAG to SEAL and OPEN. -/
theorem exec_next_shape {i : Instr} {s t : State} (h : exec i s = .next t) :
    ∃ e rk kv d m g,
      t = complete e { s with rk := rk, keyValid := kv, dout := d, buf := m, tag := g } ∧
      (i ≠ .keysched → rk = s.rk ∧ kv = s.keyValid) ∧
      (i ≠ .encblk → i ≠ .decblk → d = s.dout) ∧
      (i ≠ .sealMsg → i ≠ .openMsg → m = s.buf ∧ g = s.tag) := by
  rcases exec_cases i s with ⟨e, -, hx⟩ | ⟨-, -, -, -, hx⟩ | ⟨-, hx⟩ | ⟨hi, hx⟩ | ⟨hi, d, hx⟩ |
    ⟨hi, -, bs, g, -, -, hx⟩
  · cases hx.symm.trans h
    exact ⟨e, s.rk, s.keyValid, s.dout, s.buf, s.tag, rfl, by simp⟩
  · cases hx.symm.trans h
  · cases hx.symm.trans h
    exact ⟨.ok, s.rk, s.keyValid, s.dout, s.buf, s.tag, rfl, by simp⟩
  · cases hx.symm.trans h
    exact ⟨.ok, _, _, s.dout, s.buf, s.tag, rfl, by simp [hi]⟩
  · cases hx.symm.trans h
    exact ⟨.ok, s.rk, s.keyValid, d, s.buf, s.tag, rfl, by simp, by tauto, by simp⟩
  · cases hx.symm.trans h
    exact ⟨.ok, s.rk, s.keyValid, s.dout, _, g, rfl, by simp, by simp, by tauto⟩

theorem exec_busy {i : Instr} {s t : State} (h : exec i s = .next t) : t.busy = false := by
  obtain ⟨e, rk, kv, d, m, g, rfl, -⟩ := exec_next_shape h
  rfl

theorem exec_roundKeys {i : Instr} {s t : State} (h : exec i s = .next t) (hi : i ≠ .keysched) :
    t.rk = s.rk ∧ t.keyValid = s.keyValid := by
  obtain ⟨e, rk, kv, d, m, g, rfl, hrk, -⟩ := exec_next_shape h
  exact hrk hi

/-- An engine's turn that changes RK or KEYVALID runs KEYSCHED. -/
theorem engineTurn_roundKeys {s t : State} (h : engineTurn s = .next t)
    (hne : t.rk ≠ s.rk ∨ t.keyValid ≠ s.keyValid) : s.busy = true ∧ s.cmd = encode .keysched := by
  rcases engineTurn_cases s with ⟨-, hx⟩ | ⟨-, r, -, hx⟩ | ⟨hb, i, hd, hx⟩
  · cases hx.symm.trans h
    simp at hne
  · cases hx.symm.trans h
    simp at hne
  · by_cases hi : i = .keysched
    · exact ⟨hb, hi ▸ eq_encode_of_decode hd⟩
    · simp [exec_roundKeys (hx.symm.trans h) hi] at hne

/-- After the engine's turn the core is idle. -/
theorem engineTurn_busy_false {s t : State} (h : engineTurn s = .next t) : t.busy = false := by
  rcases engineTurn_cases s with ⟨hb, hx⟩ | ⟨-, r, -, hx⟩ | ⟨-, i, -, hx⟩
  · cases hx.symm.trans h
    exact hb
  · cases hx.symm.trans h
    rfl
  · exact exec_busy (hx.symm.trans h)

/-! ### Host transactions -/

/-- A host step that goes on answers, and changes the rest of the state by a supported write only (R37, R38). -/
theorem hostStep_next {x : HostTx} {s t : State} (h : hostStep x s = .next t) :
    (∃ r, t = answer r s) ∨
    (x.supported ∧ x.dir = .wr ∧ ∃ p, targetAt s.cfg x.off = some p ∧
      t = answer .okay (writeTarget p x.wdata s)) := by
  rcases hostStep_cases x s with ⟨-, hx⟩ | ⟨hs, p, hp, ⟨hd, hx⟩ | ⟨-, v, -, hx⟩ | ⟨-, -, hx⟩⟩
  · exact .inl ⟨_, by cases hx.symm.trans h; rfl⟩
  · exact .inr ⟨hs, hd, p, hp, by cases hx.symm.trans h; rfl⟩
  · exact .inl ⟨_, by cases hx.symm.trans h; rfl⟩
  · cases hx.symm.trans h

/-- An unsupported form and an offset beyond the map get SLVERR (R35, R36). -/
theorem hostStep_slvErr {x : HostTx} {s : State} (h : ¬ x.supported ∨ targetAt s.cfg x.off = none) :
    hostStep x s = .next (answer .slvErr s) := by
  rcases hostStep_cases x s with ⟨-, hx⟩ | ⟨hs, p, hp, -⟩
  · exact hx
  · simp [hs, hp] at h

/-- No write reaches the parameters, the round keys, ERR or the turns to come. -/
theorem writeTarget_frame (p : Target) (v : Word) (s : State) :
    (writeTarget p v s).cfg = s.cfg ∧ (writeTarget p v s).rk = s.rk ∧
    (writeTarget p v s).keyValid = s.keyValid ∧ (writeTarget p v s).err = s.err ∧
    (writeTarget p v s).inputs = s.inputs := by
  rcases writeTarget_cases p v s with ⟨-, h⟩ | ⟨-, h⟩ | ⟨-, -, h⟩ | ⟨-, -, h⟩ | ⟨-, -, l, k, n, d, g, m, -, h⟩ <;>
    simp [h]

theorem hostStep_roundKeys {x : HostTx} {s t : State} (h : hostStep x s = .next t) :
    t.rk = s.rk ∧ t.keyValid = s.keyValid := by
  rcases hostStep_next h with ⟨r, rfl⟩ | ⟨-, -, p, -, rfl⟩
  · exact ⟨rfl, rfl⟩
  · obtain ⟨-, hrk, hkv, -, -⟩ := writeTarget_frame p x.wdata s
    exact ⟨hrk, hkv⟩

theorem hostStep_inputs {x : HostTx} {s t : State} (h : hostStep x s = .next t) : t.inputs = s.inputs := by
  rcases hostStep_next h with ⟨r, rfl⟩ | ⟨-, -, p, -, rfl⟩
  · rfl
  · obtain ⟨-, -, -, -, hin⟩ := writeTarget_frame p x.wdata s
    exact hin

/-- A write never makes a busy core idle. -/
theorem writeTarget_busy {s : State} (hb : s.busy = true) (p : Target) (v : Word) : (writeTarget p v s).busy = true := by
  rcases writeTarget_cases p v s with ⟨-, h⟩ | ⟨-, h⟩ | ⟨-, -, h⟩ | ⟨hi, -⟩ | ⟨hi, -⟩
  · simp [h, hb]
  · simp [h, hb]
  · simp [h, hb]
  · simp [hb] at hi
  · simp [hb] at hi

/-- Only a write of CMD makes an idle core busy, and CMD then holds its data (R18). -/
theorem writeTarget_starts {p : Target} {v : Word} {s : State} (hb : s.busy = false)
    (hb' : (writeTarget p v s).busy = true) : p = .cmd ∧ (writeTarget p v s).cmd = v := by
  rcases writeTarget_cases p v s with ⟨-, h⟩ | ⟨-, h⟩ | ⟨-, hi, -⟩ | ⟨-, hp, h⟩ | ⟨-, -, l, k, n, d, g, m, -, h⟩
  · simp [h, hb] at hb'
  · simp [h, hb] at hb'
  · simp [hb] at hi
  · exact ⟨hp, by simp [h]⟩
  · simp [h, hb] at hb'

theorem hostStep_busy {x : HostTx} {s t : State} (h : hostStep x s = .next t) (hb : s.busy = true) : t.busy = true := by
  rcases hostStep_next h with ⟨r, rfl⟩ | ⟨-, -, p, -, rfl⟩
  · exact hb
  · exact writeTarget_busy hb p x.wdata

/-- A host step that makes an idle core busy is the supported write of offset 0x008. -/
theorem hostStep_starts {x : HostTx} {s t : State} (h : hostStep x s = .next t) (hb : s.busy = false)
    (hb' : t.busy = true) : x.dir = .wr ∧ x.size = 2 ∧ x.off = 0x008 ∧ t.cmd = x.wdata := by
  rcases hostStep_next h with ⟨r, rfl⟩ | ⟨⟨hsize, halign⟩, hd, p, hp, rfl⟩
  · simp [hb] at hb'
  · obtain ⟨rfl, hcmd⟩ := writeTarget_starts hb hb'
    exact ⟨hd, hsize, off_of_targetAt_cmd halign hp, hcmd⟩

end Sys2Proof.Machine
end

section
/-! The claims about single operations of the state record: STATUS, the reset values, the idle engine, the checks of the
commands and the frames (spec/10_state.md). -/

namespace Sys2Proof.Machine

/-- Settles O6: the engine's turn of an idle core is the identity on the state with that turn taken. -/
theorem engineIsDisabledWhileIdle : Obligations.EngineIsDisabledWhileIdle := by
  intro s he hb
  rw [step_engineNext he]
  exact engineTurn_idle hb

/-- Settles O17: each of the four keyed commands opens with the KEYVALID check. -/
theorem cipherCommandsNeedAKey : Obligations.CipherCommandsNeedAKey := by
  intro i s hnop hks hk
  cases i with
  | nop => exact absurd rfl hnop
  | keysched => exact absurd rfl hks
  | encblk => exact execEncblk_unkeyed hk
  | decblk => exact execDecblk_unkeyed hk
  | sealMsg => exact withKey_invalid hk _
  | openMsg => exact withKey_invalid hk _

/-- Settles O18: SEAL and OPEN pass the KEYVALID check and stop at the LEN check. -/
theorem messageCommandsRejectABadLength : Obligations.MessageCommandsRejectABadLength := by
  intro s hk hl
  exact ⟨(withKey_valid hk _).trans (withMessage_badLength hl _),
    (withKey_valid hk _).trans (withMessage_badLength hl _)⟩

/-- Settles O20, by the shape of the state that a command leaves. -/
theorem registerCommandsFrame : Obligations.RegisterCommandsFrame := by
  intro i s t hseal hopen h
  obtain ⟨e, rk, kv, d, m, g, rfl, hrk, hd, hbuf⟩ := exec_next_shape h
  obtain ⟨rfl, rfl⟩ := hbuf hseal hopen
  exact ⟨fun _ => rfl, rfl, hrk, hd, rfl, rfl, rfl, rfl, rfl, rfl, rfl, rfl, rfl⟩

/-- Settles O37: the fields of the STATUS word are disjoint, so their OR is their sum. -/
theorem statusWordLayout : Obligations.StatusWordLayout := by
  intro s
  simp only [statusWord, BitVec.toNat_append, BitVec.toNat_ofBool]
  rw [← Nat.shiftLeft_add_eq_or_of_lt (s.busy.toNat_lt), ← Nat.shiftLeft_add_eq_or_of_lt (s.keyValid.toNat_lt),
    ← Nat.shiftLeft_add_eq_or_of_lt (s.ovr.toNat_lt)]
  simp only [Nat.shiftLeft_eq, BitVec.ofNat_eq_ofNat, BitVec.toNat_ofNat, Nat.reducePow, Nat.zero_mod, zero_mul,
    Nat.zero_or, Nat.or_zero, pow_one]
  omega

/-- Settles O38: it is the definition of the STATUS write (R17). -/
theorem statusWriteClearsOverrun : Obligations.StatusWriteClearsOverrun := fun _ _ => rfl

/-- Settles O49: every field of the reset state by its own lemma. -/
theorem resetValues : Obligations.ResetValues := by
  intro c
  refine ⟨rfl, rfl, rfl, rfl, rfl, ?_, rfl, rfl, rfl, rfl, rfl, rfl, rfl, fun i hi => ?_, fun _ => rfl⟩
  · simp [statusWordLayout (State.resetWith c)]
  · simp

end Sys2Proof.Machine
end

section
/-! Which step can change RK, KEYVALID and BUSY (spec/10_state.md R16, R18, R26 to R28). -/

namespace Sys2Proof.Machine

/-- Settles O51, by whose turn the step is. -/
theorem onlyKeyschedAndResetChangeTheRoundKeys : Obligations.OnlyKeyschedAndResetChangeTheRoundKeys := by
  intro s t h hne
  rcases turn_cases s with he | hreset | ⟨x, rest, hin⟩
  · rw [step_engineNext he] at h
    obtain ⟨hb, hcmd⟩ := engineTurn_roundKeys h hne
    exact .inl ⟨he, hb, hcmd⟩
  · exact .inr hreset
  · rw [step_host hin] at h
    simp [hostStep_roundKeys h] at hne

/-- Settles O52, by whose turn the step is: the engine and a reset leave an idle core, and a host step starts a command only
by a write of CMD. -/
theorem busyChanges : Obligations.BusyChanges := by
  intro s t h
  rcases turn_cases s with he | hreset | ⟨x, rest, hin⟩
  · rw [step_engineNext he] at h
    exact ⟨fun _ hb => by simp [engineTurn_busy_false h] at hb, fun _ _ => .inl he⟩
  · obtain ⟨rest, hin⟩ := hreset
    rw [step_reset hin] at h
    cases h
    exact ⟨fun _ hb => by simp at hb, fun _ _ => .inr ⟨rest, hin⟩⟩
  · rw [step_host hin] at h
    exact ⟨fun hb hb' => ⟨x, rest, hin, hostStep_starts h hb hb'⟩,
      fun hb hb' => by simp [hostStep_busy h hb] at hb'⟩

end Sys2Proof.Machine
end

section
/-! The invariant: it holds right after reset, and each operation of a step keeps it. -/

namespace Sys2Proof.Machine

theorem resetWith_inv {c : Config} (hc : c.wf) : (State.resetWith c).Inv where
  cfgLegal := hc
  bufCanonical := rfl
  bufInRange := by simp
  errRaised := by simp
  keyed := by simp
  unkeyed := fun _ => rfl

/-- Settles O56: the default parameters of R8 are legal. -/
theorem resetMeetsTheInvariant : Obligations.ResetMeetsTheInvariant := resetWith_inv (by decide)

/-- The invariant speaks of the parameters, BUF, ERR, RK and KEYVALID only. -/
theorem State.Inv.of_eq {s t : State} (h : s.Inv) (hcfg : t.cfg = s.cfg := by rfl) (hbuf : t.buf = s.buf := by rfl)
    (herr : t.err = s.err := by rfl) (hkv : t.keyValid = s.keyValid := by rfl) (hrk : t.rk = s.rk := by rfl) : t.Inv where
  cfgLegal := hcfg ▸ h.cfgLegal
  bufCanonical := hbuf ▸ h.bufCanonical
  bufInRange := hbuf ▸ hcfg ▸ h.bufInRange
  errRaised := herr ▸ h.errRaised
  keyed := hkv ▸ hrk ▸ h.keyed
  unkeyed := hkv ▸ hrk ▸ h.unkeyed

/-- BUF may change to any canonical memory in range. -/
theorem State.Inv.setBuf {s : State} (h : s.Inv) {m : Memory} (hwf : m.wf = true)
    (hrange : ∀ c ∈ m, c.1 < s.cfg.msgBufBytes) : { s with buf := m }.Inv :=
  { h with bufCanonical := hwf, bufInRange := hrange }

/-- A completion keeps the invariant when its code is one that is raised (R90). -/
theorem State.Inv.complete {s : State} (h : s.Inv) {e : ErrCode} (he : e.bits.toNat ≤ 4) : (complete e s).Inv :=
  { h with errRaised := he }

theorem exec_keeps_inv {i : Instr} {s t : State} (hs : s.Inv) (h : exec i s = .next t) : t.Inv := by
  rcases exec_cases i s with ⟨e, he, hx⟩ | ⟨-, -, -, -, hx⟩ | ⟨-, hx⟩ | ⟨-, hx⟩ | ⟨-, d, hx⟩ |
    ⟨-, hlen, bs, g, hbs, -, hx⟩
  · cases hx.symm.trans h
    exact hs.complete (by rcases he with rfl | rfl | rfl <;> decide)
  · cases hx.symm.trans h
  · cases hx.symm.trans h
    exact hs.complete (by decide)
  · cases hx.symm.trans h
    have hkey : { s with rk := schedule (unwords s.key), keyValid := true }.Inv :=
      { hs with keyed := fun _ => ⟨_, rfl⟩, unkeyed := by simp }
    exact hkey.complete (by decide)
  · cases hx.symm.trans h
    exact (hs.complete (e := .ok) (by decide)).of_eq
  · cases hx.symm.trans h
    have hbuf := hs.setBuf (wf_memWrite hs.bufCanonical 0 bs) (inRange_memWrite hs.bufInRange (by omega))
    exact (hbuf.complete (e := .ok) (by decide)).of_eq

theorem engineTurn_keeps_inv {s t : State} (hs : s.Inv) (h : engineTurn s = .next t) : t.Inv := by
  rcases engineTurn_cases s with ⟨-, hx⟩ | ⟨-, r, -, hx⟩ | ⟨-, i, -, hx⟩
  · cases hx.symm.trans h
    exact hs
  · cases hx.symm.trans h
    exact hs.complete (by decide)
  · exact exec_keeps_inv hs (hx.symm.trans h)

/-- Every BUF word that an offset names lies inside BUF, whose size is a multiple of 16 (R8, R36). -/
theorem inRange_writeBufWord {s : State} (hs : s.Inv) {off w : Nat} (hp : targetAt s.cfg off = some (.buf w)) (v : Word) :
    ∀ c ∈ writeBufWord s.buf w v, c.1 < s.cfg.msgBufBytes := by
  obtain ⟨hlo, hhi, rfl⟩ := targetAt_eq_buf.1 hp
  obtain ⟨hmod, -, -⟩ := hs.cfgLegal
  exact inRange_memWrite hs.bufInRange (by simp only [List.length_cons, List.length_nil]; omega)

theorem writeTarget_keeps_inv {s : State} (hs : s.Inv) {off : Nat} {p : Target} (hp : targetAt s.cfg off = some p)
    (v : Word) : (writeTarget p v s).Inv := by
  rcases writeTarget_cases p v s with ⟨-, h⟩ | ⟨-, h⟩ | ⟨-, -, h⟩ | ⟨-, -, h⟩ | ⟨-, -, l, k, n, d, g, m, hm, h⟩
  · rw [h]
    exact hs.of_eq
  · rwa [h]
  · rw [h]
    exact hs.of_eq
  · rw [h]
    exact hs.of_eq
  · have hbuf : { s with buf := m }.Inv := by
      rcases hm with rfl | ⟨w, rfl, rfl⟩
      · exact hs
      · exact hs.setBuf (wf_writeBufWord hs.bufCanonical w v) (inRange_writeBufWord hs hp v)
    rw [h]
    exact hbuf.of_eq

theorem hostStep_keeps_inv {x : HostTx} {s t : State} (hs : s.Inv) (h : hostStep x s = .next t) : t.Inv := by
  rcases hostStep_next h with ⟨r, rfl⟩ | ⟨-, -, p, hp, rfl⟩
  · exact hs.of_eq
  · exact (writeTarget_keeps_inv hs hp x.wdata).of_eq

theorem resetStep_inv {s : State} (hs : s.Inv) : (resetStep s).Inv :=
  (resetWith_inv hs.cfgLegal).of_eq

/-- Settles O57, by whose turn the step is. -/
theorem everyStepKeepsTheInvariant : Obligations.EveryStepKeepsTheInvariant := by
  intro s t hs h
  have hin : ∀ rest, (withInputs rest s).Inv := fun _ => hs.of_eq
  rcases turn_cases s with he | ⟨rest, hr⟩ | ⟨x, rest, hx⟩
  · exact engineTurn_keeps_inv (hin _) (step_engineNext he ▸ h)
  · rw [step_reset hr] at h
    cases h
    exact resetStep_inv (hin rest)
  · exact hostStep_keeps_inv (hin rest) (step_host hx ▸ h)

end Sys2Proof.Machine
end

section
/-! Noninterference: what a host transaction answers and leaves, KEY and RK hidden, depends on the state with KEY and RK
hidden only (R20, R26, R98). -/

namespace Sys2Proof.Machine

/-! ### The view -/

@[simp] theorem viewed_next {α : Type} (f : State → α) (s : State) : viewed f (.next s) = .next (f s) := rfl

@[simp] theorem viewed_fault {α : Type} (f : State → α) (r : Fault) : viewed f (.fault r) = .fault r := rfl

@[simp] theorem viewed_refused {α : Type} (f : State → α) (r : Refusal) : viewed f (.refused r) = .refused r := rfl

/-- Two runs look alike when their first steps look alike and the runs after these do. -/
theorem viewed_runFor_succ {α : Type} {f : State → α} {s s' : State} {k : Nat}
    (hstep : viewed f (step s) = viewed f (step s'))
    (hrest : ∀ t t', step s = .next t → step s' = .next t' → f t = f t' →
      viewed f (runFor k t) = viewed f (runFor k t')) :
    viewed f (runFor (k + 1) s) = viewed f (runFor (k + 1) s') := by
  simp only [runFor]
  cases hs : step s <;> cases hs' : step s' <;> simp only [hs, hs', viewed_next, viewed_fault, viewed_refused] at hstep
  case next.next t t' => exact hrest t t' hs hs' (Host.Outcome.next.inj hstep)
  case fault.fault => exact hstep
  case refused.refused => exact hstep
  all_goals cases hstep

/-! ### One transaction -/

/-- No place of the map reads KEY or RK (R20, R26). -/
@[simp] theorem readTarget_hideSecrets (p : Target) (s : State) : readTarget p (hideSecrets s) = readTarget p s := by
  cases p <;> rfl

@[simp] theorem hideSecrets_answer (r : Response) (s : State) :
    hideSecrets (answer r s) = answer r (hideSecrets s) := rfl

/-- The BUSY check of a store does not depend on KEY and RK. -/
theorem hideSecrets_storeIfIdle {s u u' : State} (h : hideSecrets u = hideSecrets u') :
    hideSecrets (storeIfIdle (hideSecrets s) u) = hideSecrets (storeIfIdle s u') := by
  have hbusy : (hideSecrets s).busy = s.busy := rfl
  cases hb : s.busy with
  | true => rw [storeIfIdle_busy u (hbusy.trans hb), storeIfIdle_busy u' hb]; rfl
  | false => rwa [storeIfIdle_idle u (hbusy.trans hb), storeIfIdle_idle u' hb]

/-- What a write does outside KEY and RK does not depend on them. -/
theorem hideSecrets_writeTarget (p : Target) (v : Word) (s : State) :
    hideSecrets (writeTarget p v (hideSecrets s)) = hideSecrets (writeTarget p v s) := by
  cases p with
  | id | status | dout | reserved => rfl
  | cmd | len | key | nonce | din | tag | buf => exact hideSecrets_storeIfIdle rfl

theorem viewed_hostStep_hideSecrets (x : HostTx) (s : State) :
    viewed hideSecrets (hostStep x (hideSecrets s)) = viewed hideSecrets (hostStep x s) := by
  have hcfg : (hideSecrets s).cfg = s.cfg := rfl
  rcases hostStep_cases x s with ⟨hbad, hx⟩ | ⟨hs, p, hp, ⟨hd, hx⟩ | ⟨hd, v, hv, hx⟩ | ⟨hd, hv, hx⟩⟩
  · rw [hx, hostStep_slvErr (hcfg ▸ hbad)]
    rfl
  · rw [hx, hostStep_write hs (hcfg ▸ hp) hd]
    simp [hideSecrets_writeTarget]
  · rw [hx, hostStep_read hs (hcfg ▸ hp) hd ((readTarget_hideSecrets p s).trans hv)]
    rfl
  · rw [hx, hostStep_unwritten hs (hcfg ▸ hp) hd ((readTarget_hideSecrets p s).trans hv)]

/-- Two states that differ in KEY and RK only answer a transaction alike. -/
theorem viewed_hostStep_congr {s s' : State} (h : hideSecrets s = hideSecrets s') (x : HostTx) :
    viewed hideSecrets (hostStep x s) = viewed hideSecrets (hostStep x s') := by
  rw [← viewed_hostStep_hideSecrets, h, viewed_hostStep_hideSecrets]

/-- Settles O55, by induction on the transactions. -/
theorem hostReadsRevealNoKeyMaterial : Obligations.HostReadsRevealNoKeyMaterial := by
  intro xs
  induction xs with
  | nil => exact fun s s' h _ => congrArg Host.Outcome.next h
  | cons x xs ih =>
    intro s s' h hin
    have hin' : s'.inputs = .host x :: xs.map Input.host := (congrArg State.inputs h).symm.trans hin
    apply viewed_runFor_succ
    · rw [step_host hin, step_host hin']
      have hview : hideSecrets (withInputs (xs.map .host) s) = hideSecrets (withInputs (xs.map .host) s') :=
        congrArg (withInputs _) h
      exact viewed_hostStep_congr hview x
    · intro t t' ht _ htt'
      rw [step_host hin] at ht
      exact ih t t' htt' (hostStep_inputs ht)

end Sys2Proof.Machine
end

section
/-! What the commands read and write in BUF: when SEAL and OPEN fault, and what they leave unchanged
(spec/20_memory.md R41, R47). -/

namespace Sys2Proof.Machine

/-- A SEAL or OPEN in this state faults (R47): the KEYVALID and LEN checks pass, and the message has an unwritten byte. -/
def State.messageFaults (s : State) : Prop :=
  s.keyValid = true ∧ s.len.toNat ≤ s.cfg.msgBufBytes ∧ ∃ a, a < s.len.toNat ∧ s.buf.read a = none

theorem memRead_message_eq_none (m : Memory) (n : Nat) : memRead m 0 n = none ↔ ∃ a, a < n ∧ m.read a = none := by
  simp [memRead_eq_none]

/-- A command faults exactly when it is a SEAL or OPEN that reaches an unwritten byte of its message. -/
theorem exec_fault_iff {i : Instr} {s : State} {f : Fault} :
    exec i s = .fault f ↔ f = .messageUnwritten ∧ (i = .sealMsg ∨ i = .openMsg) ∧ s.messageFaults := by
  constructor
  · intro h
    rcases exec_cases i s with ⟨e, -, hx⟩ | ⟨hi, hk, hl, hm, hx⟩ | ⟨-, hx⟩ | ⟨-, hx⟩ | ⟨-, d, hx⟩ |
      ⟨-, -, bs, g, -, -, hx⟩
    case inr.inl =>
      cases hx.symm.trans h
      exact ⟨rfl, hi, hk, hl, (memRead_message_eq_none _ _).1 hm⟩
    all_goals cases hx.symm.trans h
  · rintro ⟨rfl, hi, hk, hl, hm⟩
    have hread := (memRead_message_eq_none _ _).2 hm
    rcases hi with rfl | rfl
    · exact (withKey_valid hk _).trans (withMessage_unwritten hl hread _)
    · exact (withKey_valid hk _).trans (withMessage_unwritten hl hread _)

theorem exec_ne_refused (i : Instr) (s : State) (r : Refusal) : exec i s ≠ .refused r := by
  intro h
  rcases exec_cases i s with ⟨e, -, hx⟩ | ⟨-, -, -, -, hx⟩ | ⟨-, hx⟩ | ⟨-, hx⟩ | ⟨-, d, hx⟩ |
    ⟨-, -, bs, g, -, -, hx⟩
  all_goals cases hx.symm.trans h

/-- No command reaches BUF outside its message, and only SEAL writes TAG (R41, R85, R86). -/
theorem exec_memory_frame {i : Instr} {s t : State} (h : exec i s = .next t) :
    (∀ a, s.len.toNat ≤ a → t.buf.read a = s.buf.read a) ∧ (i ≠ .sealMsg → t.tag = s.tag) := by
  rcases exec_cases i s with ⟨e, -, hx⟩ | ⟨-, -, -, -, hx⟩ | ⟨-, hx⟩ | ⟨-, hx⟩ | ⟨-, d, hx⟩ |
    ⟨hi, -, bs, g, hbs, hg, hx⟩
  case inr.inl => cases hx.symm.trans h
  case inr.inr.inr.inr.inr =>
    cases hx.symm.trans h
    refine ⟨fun a ha => ?_, fun hseal => hg (hi.resolve_left hseal)⟩
    have hout : ¬ (0 ≤ a ∧ a < 0 + bs.length) := by omega
    exact (read_memWrite s.buf 0 bs a).trans (if_neg hout)
  all_goals
    cases hx.symm.trans h
    exact ⟨fun _ _ => rfl, fun _ => rfl⟩

/-- Settles O19: the fault comes after the KEYVALID and LEN checks. -/
theorem messageCommandsFaultOnUnwrittenBytes : Obligations.MessageCommandsFaultOnUnwrittenBytes := by
  intro s i hi
  exact exec_fault_iff.trans ⟨fun ⟨_, _, hf⟩ => hf, fun hf => ⟨rfl, hi, hf⟩⟩

/-- Settles O21, by the shape of the state that a command leaves and by what it writes in BUF. -/
theorem messageCommandsFrame : Obligations.MessageCommandsFrame := by
  intro i s t hi h
  obtain ⟨hbuf, htag⟩ := exec_memory_frame h
  obtain ⟨e, rk, kv, d, m, g, rfl, hrk, hd, -⟩ := exec_next_shape h
  obtain ⟨rfl, rfl⟩ := hrk (by rintro rfl; simp at hi)
  obtain rfl := hd (by rintro rfl; simp at hi) (by rintro rfl; simp at hi)
  exact ⟨hbuf, fun hopen => htag (by simp [hopen]), rfl, rfl, rfl, rfl, rfl, rfl, rfl, rfl, rfl, rfl, rfl, rfl⟩

end Sys2Proof.Machine
end

section
/-! What a supported transaction does at each place of the address map (spec/20_memory.md R34, R37, R38, R40). -/

namespace Sys2Proof.Machine

/-! ### Registers -/

/-- The registers of the map read as R34's read columns say: the first 24 words one by one, the rest as reserved. -/
theorem readTarget_registerAt (s : State) {off : Nat} (h4 : off % 4 = 0) (h : off < 0x1000) :
    readTarget (registerAt (off / 4)) s = some (registerRead s off) := by
  rcases registerOffset_cases h4 h with ⟨i, hi, rfl⟩ | ⟨hlo, hr⟩
  · rw [Nat.mul_div_cancel_left i (by decide)]
    interval_cases i <;>
      simp [registerAt, readTarget, registerRead, idWord, quadGet, tripleGet, apply_ite some]
  · rw [hr]
    simp (disch := omega) only [readTarget, registerRead, if_neg, ite_self]

/-- A write of a register of the map does what R34's write column says, by the same cases. -/
theorem writeTarget_registerAt (v : Word) (s : State) {off : Nat} (h4 : off % 4 = 0) (h : off < 0x1000) :
    writeTarget (registerAt (off / 4)) v s = registerWrite off v s := by
  rcases registerOffset_cases h4 h with ⟨i, hi, rfl⟩ | ⟨hlo, hr⟩
  · rw [Nat.mul_div_cancel_left i (by decide)]
    interval_cases i <;>
      simp [registerAt, writeTarget, registerWrite, storeIfIdle, writeStatus, quadSet, tripleSet, Bool.and_comm]
  · rw [hr]
    simp (disch := omega) only [writeTarget, registerWrite, if_neg, hlo, or_true, if_true]

/-- The answers are no operand of a write: it may be answered before or after. -/
theorem answer_writeTarget (r : Response) (p : Target) (v : Word) (s : State) :
    answer r (writeTarget p v s) = writeTarget p v (answer r s) := by
  have hstore : ∀ s' : State, answer r (storeIfIdle s s') = storeIfIdle (answer r s) (answer r s') :=
    fun s' => apply_ite (answer r) _ _ _
  cases p with
  | id | status | dout | reserved => rfl
  | cmd | len | key | nonce | din | tag | buf => exact hstore _

/-! ### BUF words -/

theorem readTarget_buf_idle {s : State} (hb : s.busy = false) (w : Nat) :
    readTarget (.buf w) s = bufWord s.buf w := by
  simp [readTarget, hb]

theorem readTarget_buf_busy {s : State} (hb : s.busy = true) (w : Nat) : readTarget (.buf w) s = some 0 := by
  simp [readTarget, hb]

theorem writeTarget_buf_idle {s : State} (hb : s.busy = false) (w : Nat) (v : Word) :
    writeTarget (.buf w) v s = { s with buf := writeBufWord s.buf w v } :=
  storeIfIdle_idle _ hb

theorem writeTarget_buf_busy {s : State} (hb : s.busy = true) (w : Nat) (v : Word) :
    writeTarget (.buf w) v s = { s with ovr := true } :=
  storeIfIdle_busy _ hb

/-- The offset of a BUF word is aligned and names it. -/
theorem bufOffset_spec {c : Config} {off w : Nat} (ho : off = 0x1000 + 4 * w) (h : off < 0x1000 + c.msgBufBytes) :
    off % 4 = 0 ∧ targetAt c off = some (.buf w) :=
  ⟨by omega, targetAt_eq_buf.2 ⟨by omega, h, by omega⟩⟩

/-! ### Faults of the host port -/

/-- A host step faults exactly when it reads, on an idle core, a BUF word with an unwritten byte. -/
theorem hostStep_fault_iff {x : HostTx} {s : State} {f : Fault} :
    hostStep x s = .fault f ↔ f = .hostReadUnwritten ∧ s.busy = false ∧ x.dir = .rd ∧ x.size = 2 ∧ x.off % 4 = 0 ∧
      0x1000 ≤ x.off ∧ x.off < 0x1000 + s.cfg.msgBufBytes ∧ ∃ j, j < 4 ∧ s.buf.read (x.off - 0x1000 + j) = none := by
  constructor
  · intro h
    rcases hostStep_cases x s with ⟨-, hx⟩ | ⟨⟨hsize, halign⟩, p, hp, ⟨-, hx⟩ | ⟨-, v, -, hx⟩ | ⟨hd, hv, hx⟩⟩
    · cases hx.symm.trans h
    · cases hx.symm.trans h
    · cases hx.symm.trans h
    · cases hx.symm.trans h
      obtain ⟨w, rfl, hb, hw⟩ := readTarget_eq_none.1 hv
      obtain ⟨hlo, hhi, rfl⟩ := targetAt_eq_buf.1 hp
      rw [bufWord_eq_none, show 4 * ((x.off - 0x1000) / 4) = x.off - 0x1000 by omega] at hw
      exact ⟨rfl, hb, hd, hsize, halign, hlo, hhi, hw⟩
  · rintro ⟨rfl, hb, hd, hsize, halign, hlo, hhi, hw⟩
    refine hostStep_unwritten ⟨hsize, halign⟩ (targetAt_buf s.cfg hlo hhi) hd ?_
    rw [readTarget_buf_idle hb, bufWord_eq_none, show 4 * ((x.off - 0x1000) / 4) = x.off - 0x1000 by omega]
    exact hw

theorem hostStep_ne_refused (x : HostTx) (s : State) (r : Refusal) : hostStep x s ≠ .refused r := by
  intro h
  rcases hostStep_cases x s with ⟨-, hx⟩ | ⟨-, p, -, ⟨-, hx⟩ | ⟨-, v, -, hx⟩ | ⟨-, -, hx⟩⟩
  all_goals cases hx.symm.trans h

end Sys2Proof.Machine
end

section
/-! The claims about host transactions (spec/20_memory.md R34 to R42, R47). In each, the host step is made from the state
with the turn taken, which has the fields of the state before but for the turns to come. -/

namespace Sys2Proof.Machine

/-- The step of a supported write (R38). -/
theorem step_write {s : State} {x : HostTx} {rest : List Input} {p : Target} (hin : s.inputs = .host x :: rest)
    (hs : x.supported) (hp : targetAt s.cfg x.off = some p) (hd : x.dir = .wr) :
    step s = .next (answer .okay (writeTarget p x.wdata (withInputs rest s))) :=
  (step_host hin).trans (hostStep_write hs hp hd)

/-- The step of a supported read that has a value (R37). -/
theorem step_read {s : State} {x : HostTx} {rest : List Input} {p : Target} {v : Word}
    (hin : s.inputs = .host x :: rest) (hs : x.supported) (hp : targetAt s.cfg x.off = some p) (hd : x.dir = .rd)
    (hv : readTarget p s = some v) : step s = .next (answer (.data v) (withInputs rest s)) :=
  (step_host hin).trans (hostStep_read hs hp hd hv)

/-- Settles O39: each of the three forms is unsupported or lies beyond the map. -/
theorem unsupportedTransactionsGetSlverr : Obligations.UnsupportedTransactionsGetSlverr := by
  intro s x rest hin hbad
  rw [step_host hin]
  apply hostStep_slvErr
  rcases hbad with hsize | halign | hout
  · exact .inl fun hs => hsize hs.1
  · exact .inl fun hs => halign hs.2
  · exact .inr (targetAt_outside s.cfg hout)

/-- Settles O40, by the read columns of the map. -/
theorem registerReads : Obligations.RegisterReads := by
  intro s x rest hin hd hsize halign hoff
  exact step_read hin ⟨hsize, halign⟩ (targetAt_register s.cfg hoff) hd (readTarget_registerAt s halign hoff)

/-- Settles O41, by the write column of the map. -/
theorem registerWrites : Obligations.RegisterWrites := by
  intro s x rest hin hd hsize halign hoff
  rw [step_write hin ⟨hsize, halign⟩ (targetAt_register s.cfg hoff) hd, answer_writeTarget,
    writeTarget_registerAt _ _ halign hoff]
  rfl

/-- Settles O42, by the value of a word of four bytes and by the fault condition of the host port. -/
theorem bufWordReads : Obligations.BufWordReads := by
  intro s x rest w hin hd hsize hoff hhi hb
  obtain ⟨halign, htarget⟩ := bufOffset_spec hoff hhi
  refine ⟨fun b hbytes => ⟨_, ?_, wordOfBytes_toNat (b 0) (b 1) (b 2) (b 3)⟩, ?_⟩
  · exact step_read hin ⟨hsize, halign⟩ htarget hd ((readTarget_buf_idle hb w).trans (bufWord_of_bytes hbytes))
  · have hbase : x.off - 0x1000 = 4 * w := by omega
    have hlo : 0x1000 ≤ x.off := by omega
    simp [step_host hin, hostStep_fault_iff, hb, hd, hsize, halign, hlo, hhi, hbase]

/-- Settles O43, by what a read returns after a BUF word is written. -/
theorem bufWordWrites : Obligations.BufWordWrites := by
  intro s x rest w hin hd hsize hoff hhi hb
  obtain ⟨halign, htarget⟩ := bufOffset_spec hoff hhi
  refine ⟨writeBufWord s.buf w x.wdata, ?_, fun j hj => ?_, fun a ha => ?_⟩
  · rw [step_write hin ⟨hsize, halign⟩ htarget hd, writeTarget_buf_idle (s := withInputs rest s) hb]
    rfl
  · rw [read_writeBufWord, if_pos (by omega), Nat.add_sub_cancel_left]
    rfl
  · rw [read_writeBufWord, if_neg (by omega)]

/-- Settles O44: while BUSY = 1 a BUF word reads as zero, and the store drops the write. -/
theorem bufWindowWhileBusy : Obligations.BufWindowWhileBusy := by
  intro s x rest hin hsize halign hlo hhi hb
  have htarget := targetAt_buf s.cfg hlo hhi
  refine ⟨fun hd => step_read hin ⟨hsize, halign⟩ htarget hd (readTarget_buf_busy hb _), fun hd => ?_⟩
  rw [step_write hin ⟨hsize, halign⟩ htarget hd, writeTarget_buf_busy (s := withInputs rest s) hb]
  rfl

/-- Settles O45: a host step that is no write only answers. -/
theorem hostReadsChangeNothing : Obligations.HostReadsChangeNothing := by
  intro s t x rest hin hd h
  rw [step_host hin] at h
  rcases hostStep_next h with ⟨r, rfl⟩ | ⟨-, hwr, -⟩
  · rfl
  · simp [hd] at hwr

end Sys2Proof.Machine
end

section
/-! The machine's faults: each comes from an unwritten byte, and no step is refused (spec/20_memory.md R47,
spec/60_exceptions.md R96). -/

namespace Sys2Proof.Machine

/-- The engine's turn faults exactly when the pending command is a SEAL or OPEN that reaches an unwritten byte. -/
theorem engineTurn_fault_iff {s : State} {f : Fault} :
    engineTurn s = .fault f ↔ f = .messageUnwritten ∧ s.busy = true ∧
      (s.cmd = encode .sealMsg ∨ s.cmd = encode .openMsg) ∧ s.messageFaults := by
  constructor
  · intro h
    rcases engineTurn_cases s with ⟨-, hx⟩ | ⟨-, r, -, hx⟩ | ⟨hb, i, hd, hx⟩
    · cases hx.symm.trans h
    · cases hx.symm.trans h
    · obtain ⟨rfl, hi, hf⟩ := exec_fault_iff.1 (hx.symm.trans h)
      rw [eq_encode_of_decode hd]
      exact ⟨rfl, hb, hi.imp (congrArg encode) (congrArg encode), hf⟩
  · rintro ⟨rfl, hb, hcmd, hf⟩
    rw [engineTurn_busy hb]
    rcases hcmd with hc | hc
    · rw [engineStep_ok (show decode s.cmd = .ok .sealMsg by rw [hc]; rfl)]
      exact exec_fault_iff.2 ⟨rfl, .inl rfl, hf⟩
    · rw [engineStep_ok (show decode s.cmd = .ok .openMsg by rw [hc]; rfl)]
      exact exec_fault_iff.2 ⟨rfl, .inr rfl, hf⟩

theorem engineTurn_ne_refused (s : State) (r : Refusal) : engineTurn s ≠ .refused r := by
  intro h
  rcases engineTurn_cases s with ⟨-, hx⟩ | ⟨-, e, -, hx⟩ | ⟨-, i, -, hx⟩
  · cases hx.symm.trans h
  · cases hx.symm.trans h
  · exact exec_ne_refused i s r (hx.symm.trans h)

theorem step_ne_refused (s : State) (r : Refusal) : step s ≠ .refused r := by
  rcases turn_cases s with he | ⟨rest, hin⟩ | ⟨x, rest, hin⟩
  · rw [step_engineNext he]
    exact engineTurn_ne_refused _ r
  · simp [step_reset hin]
  · rw [step_host hin]
    exact hostStep_ne_refused x _ r

/-- A step raises the fault of a host read exactly when the host has the turn and its transaction raises it. -/
theorem step_hostReadUnwritten_iff (s : State) :
    step s = .fault .hostReadUnwritten ↔
      ∃ x rest, s.inputs = .host x :: rest ∧ hostStep x (withInputs rest s) = .fault .hostReadUnwritten := by
  constructor
  · intro h
    rcases turn_cases s with he | ⟨rest, hin⟩ | ⟨x, rest, hin⟩
    · rw [step_engineNext he, engineTurn_fault_iff] at h
      simp at h
    · simp [step_reset hin] at h
    · exact ⟨x, rest, hin, step_host hin ▸ h⟩
  · rintro ⟨x, rest, hin, h⟩
    exact (step_host hin).trans h

/-- A step raises the fault of a message exactly when the engine has the turn and its command raises it. -/
theorem step_messageUnwritten_iff (s : State) :
    step s = .fault .messageUnwritten ↔
      s.engineNext ∧ engineTurn (withInputs s.laterInputs s) = .fault .messageUnwritten := by
  constructor
  · intro h
    rcases turn_cases s with he | ⟨rest, hin⟩ | ⟨x, rest, hin⟩
    · exact ⟨he, step_engineNext he ▸ h⟩
    · simp [step_reset hin] at h
    · rw [step_host hin, hostStep_fault_iff] at h
      simp at h
  · rintro ⟨he, h⟩
    exact (step_engineNext he).trans h

/-- Settles O54, by the fault conditions of the host port and of the engine's turn. -/
theorem faultsComeOnlyFromUnwrittenBytes : Obligations.FaultsComeOnlyFromUnwrittenBytes := by
  intro s
  refine ⟨(step_hostReadUnwritten_iff s).trans ⟨?_, ?_⟩, (step_messageUnwritten_iff s).trans ⟨?_, ?_⟩, step_ne_refused s⟩
  · rintro ⟨x, rest, hin, h⟩
    obtain ⟨-, hb, hread⟩ := hostStep_fault_iff.1 h
    exact ⟨hb, x, rest, hin, hread⟩
  · rintro ⟨hb, x, rest, hin, hread⟩
    exact ⟨x, rest, hin, hostStep_fault_iff.2 ⟨rfl, hb, hread⟩⟩
  · rintro ⟨he, h⟩
    obtain ⟨-, hb, hcmd, hf⟩ := engineTurn_fault_iff.1 h
    exact ⟨hb, he, hcmd, hf⟩
  · rintro ⟨hb, he, hcmd, hf⟩
    exact ⟨he, engineTurn_fault_iff.2 ⟨rfl, hb, hcmd, hf⟩⟩

end Sys2Proof.Machine
end

section
/-! The command word: the decoder by the value of the word, and the claims about decoding and about an illegal word
(spec/30_encoding.md R49 to R51). -/

namespace Sys2Proof

@[simp] theorem decode_encode (i : Instr) : decode (encode i) = .ok i := by
  simp [decode, decodeOpc_opcOf]

theorem rsvField_eq_zero_iff (w : Word) : rsvField w = 0 ↔ w.toNat < 0x100 := by
  have hw := toNat_fields w
  have hopc := (opcField w).isLt
  rw [← BitVec.toNat_inj, BitVec.ofNat_eq_ofNat, BitVec.toNat_zero]
  omega

/-- A word below 0x100 is its own opcode. -/
theorem decode_of_lt {w : Word} (h : w.toNat < 0x100) : decode w = decodeOpc w.toNat := by
  have hrsv := (rsvField_eq_zero_iff w).2 h
  have hw : w.toNat = (opcField w).toNat := by simpa [hrsv] using toNat_fields w
  rw [decode, if_pos hrsv, hw]

theorem decode_reservedBitsSet {w : Word} (h : 0x100 ≤ w.toNat) : decode w = .error .reservedBitsSet :=
  if_neg fun hrsv => absurd ((rsvField_eq_zero_iff w).1 hrsv) (Nat.not_lt.2 h)

theorem decode_unknownOpcode {w : Word} (hlo : 0x06 ≤ w.toNat) (hhi : w.toNat ≤ 0xFF) :
    decode w = .error .unknownOpcode :=
  (decode_of_lt (by omega)).trans (decodeOpc_gt hlo)

theorem decode_legal {w : Word} (h : w.toNat ≤ 0x05) : ∃ i, decode w = .ok i := by
  rw [decode_of_lt (by omega)]
  exact decodeOpc_le h

/-- Every word from 0x06 on is illegal (R51). -/
theorem decode_illegal {w : Word} (h : 0x06 ≤ w.toNat) : ∃ r, decode w = .error r := by
  by_cases hrsv : 0x100 ≤ w.toNat
  · exact ⟨_, decode_reservedBitsSet hrsv⟩
  · exact ⟨_, decode_unknownOpcode h (by omega)⟩

/-- Settles O2: a word that decodes to a command is its word, and that word decodes to it. -/
theorem decodeAndEncodeAgree : Obligations.DecodeAndEncodeAgree := by
  intro w i
  constructor
  · exact eq_encode_of_decode
  · rintro rfl
    exact decode_encode i

/-- Settles O1: the six words are the command words of the six commands. -/
theorem opcodeMapWordsDecode : Obligations.OpcodeMapWordsDecode :=
  ⟨decode_encode .nop, decode_encode .keysched, decode_encode .encblk, decode_encode .decblk,
    decode_encode .sealMsg, decode_encode .openMsg⟩

/-- Settles O3, by the three ranges of the word: legal, no opcode of the map, a reserved bit set. -/
theorem illegalWordsAreRejected : Obligations.IllegalWordsAreRejected := by
  intro w
  by_cases hrsv : 0x100 ≤ w.toNat
  · rw [decode_reservedBitsSet hrsv]
    exact ⟨iff_of_true rfl hrsv, iff_of_false (by simp) (by omega)⟩
  · by_cases hopc : 0x06 ≤ w.toNat
    · rw [decode_unknownOpcode hopc (by omega)]
      exact ⟨iff_of_false (by simp) hrsv, iff_of_true rfl ⟨hopc, by omega⟩⟩
    · obtain ⟨i, hi⟩ := decode_legal (w := w) (by omega)
      rw [hi]
      exact ⟨iff_of_false (by simp) hrsv, iff_of_false (by simp) (by omega)⟩

end Sys2Proof

namespace Sys2Proof.Machine

/-- Settles O5: the engine's turn runs the engine step, and the word in CMD does not decode. -/
theorem illegalWordCompletesWithIllegalCmd : Obligations.IllegalWordCompletesWithIllegalCmd := by
  intro s he hb hcmd
  obtain ⟨r, hr⟩ := decode_illegal hcmd
  rw [step_engineNext he, engineTurn_busy (s := withInputs s.laterInputs s) hb]
  exact engineStep_error hr

end Sys2Proof.Machine
end

section
/-! The loads of a host program (spec/30_encoding.md R56): a run of writes, and the claims about LDKEY, LDNONCE, LDDIN,
LDTAG and LDBUF. -/

namespace Sys2Proof.Machine

/-! ### A run of writes -/

theorem Target.offset_aligned (p : Target) : p.offset % 4 = 0 := by
  cases p <;> simp only [Target.offset] <;> omega

/-- Every place but a BUF word is named by its offset whatever the size of BUF is. -/
theorem targetAt_offset (c : Config) {p : Target} (hp : p.offset < 0x1000) : targetAt c p.offset = some p := by
  cases p with
  | id | status | cmd | len | reserved => rfl
  | key k | din k | dout k | tag k => fin_cases k <;> rfl
  | nonce k => fin_cases k <;> rfl
  | buf w => simp only [Target.offset] at hp; omega

@[simp] theorem withInputs_withInputs (l l' : List Input) (s : State) :
    withInputs l (withInputs l' s) = withInputs l s := rfl

/-- The turns to come are no operand of a write: they may be taken before or after. -/
theorem withInputs_writeTarget (l : List Input) (p : Target) (v : Word) (s : State) :
    withInputs l (writeTarget p v s) = writeTarget p v (withInputs l s) := by
  have hstore : ∀ s' : State, withInputs l (storeIfIdle s s') = storeIfIdle (withInputs l s) (withInputs l s') :=
    fun s' => apply_ite (withInputs l) _ _ _
  cases p with
  | id | status | dout | reserved => rfl
  | cmd | len | key | nonce | din | tag | buf => exact hstore _

/-- The step of `WR p, v` (R54). -/
theorem step_wr {s : State} {p : Target} (hp : targetAt s.cfg p.offset = some p) (v : Word) (rest : List Input) :
    step (withInputs (.host (wr p v) :: rest) s) = .next (withInputs rest (answer .okay (writeTarget p v s))) := by
  rw [step_write (x := wr p v) (withInputs_inputs _ s) ⟨rfl, p.offset_aligned⟩ hp rfl, withInputs_withInputs,
    ← withInputs_writeTarget]
  rfl

/-- The state after the writes of `ws` in order, each answered OKAY. -/
def applyWrites (ws : List (Target × Word)) (s : State) : State :=
  ws.foldl (fun s x => answer .okay (writeTarget x.1 x.2 s)) s

/-- A run of register writes takes one turn per write. -/
theorem runFor_registerWrites {ws : List (Target × Word)} {s : State} {rest : List Input}
    (hws : ∀ x ∈ ws, x.1.offset < 0x1000) :
    runFor ws.length (withInputs ((ws.map fun x => wr x.1 x.2).map Input.host ++ rest) s) =
      .next (withInputs rest (applyWrites ws s)) := by
  induction ws generalizing s with
  | nil => rfl
  | cons x ws ih =>
    obtain ⟨hx, htail⟩ := List.forall_mem_cons.1 hws
    exact (runFor_next (step_wr (targetAt_offset s.cfg hx) x.2 _)).trans (ih htail)

/-! ### LDKEY, LDNONCE, LDDIN, LDTAG -/

theorem applyWrites_key {s : State} (hb : s.busy = false) (q : Quad) :
    applyWrites [(.key 0, q.w0), (.key 1, q.w1), (.key 2, q.w2), (.key 3, q.w3)] s =
      { s with key := q, answers := List.replicate 4 .okay ++ s.answers } := by
  simp [applyWrites, writeTarget, hb, quadSet, answer]

theorem applyWrites_nonce {s : State} (hb : s.busy = false) (q : Triple) :
    applyWrites [(.nonce 0, q.w0), (.nonce 1, q.w1), (.nonce 2, q.w2)] s =
      { s with nonce := q, answers := List.replicate 3 .okay ++ s.answers } := by
  simp [applyWrites, writeTarget, hb, tripleSet, answer]

theorem applyWrites_din {s : State} (hb : s.busy = false) (q : Quad) :
    applyWrites [(.din 0, q.w0), (.din 1, q.w1), (.din 2, q.w2), (.din 3, q.w3)] s =
      { s with din := q, answers := List.replicate 4 .okay ++ s.answers } := by
  simp [applyWrites, writeTarget, hb, quadSet, answer]

theorem applyWrites_tag {s : State} (hb : s.busy = false) (q : Quad) :
    applyWrites [(.tag 0, q.w0), (.tag 1, q.w1), (.tag 2, q.w2), (.tag 3, q.w3)] s =
      { s with tag := q, answers := List.replicate 4 .okay ++ s.answers } := by
  simp [applyWrites, writeTarget, hb, quadSet, answer]

/-- A schedule that begins with the register writes of `ws` leaves, after them, the state that they leave. -/
theorem runFor_load {ws : List (Target × Word)} {s t : State} {rest : List Input}
    (hws : ∀ x ∈ ws, x.1.offset < 0x1000)
    (hin : s.inputs = (ws.map fun x => wr x.1 x.2).map Input.host ++ rest) (ht : applyWrites ws s = t) :
    runFor ws.length s = .next (withInputs rest t) := by
  rw [← ht, ← runFor_registerWrites hws, ← hin, withInputs_self]

/-- Settles O46: each load is a run of writes to the registers of one group, big-endian word by word. -/
theorem loadPseudoInstructions : Obligations.LoadPseudoInstructions := by
  intro s b n rest hb
  refine ⟨fun hin => ⟨words b, unwords_words b, ?_⟩, fun hin => ⟨_, nonceBits_words n, ?_⟩,
    fun hin => ⟨words b, unwords_words b, ?_⟩, fun hin => ⟨words b, unwords_words b, ?_⟩⟩
  · exact runFor_load (by simp [Target.offset]) hin (applyWrites_key hb (words b))
  · exact runFor_load (by simp [Target.offset]) hin (applyWrites_nonce hb ⟨_, _, _⟩)
  · exact runFor_load (by simp [Target.offset]) hin (applyWrites_din hb (words b))
  · exact runFor_load (by simp [Target.offset]) hin (applyWrites_tag hb (words b))

/-! ### LDBUF -/

/-- The word that LDBUF writes for the first four bytes, a zero byte for each missing one. -/
def leadingWord (bs : List Byte) : Word :=
  wordOfBytes (bs.getD 0 0) (bs.getD 1 0) (bs.getD 2 0) (bs.getD 3 0)

theorem wordByte_leadingWord (bs : List Byte) {j : Nat} (hj : j < 4) : wordByte (leadingWord bs) j = bs.getD j 0 :=
  wordByte_wordOfBytes (bs.getD · 0) j hj

/-- LDBUF writes the leading word and then loads the bytes after the first four. -/
theorem ldBuf_of_ne_nil (w : Nat) {bs : List Byte} (h : bs ≠ []) :
    ldBuf w bs = wr (.buf w) (leadingWord bs) :: ldBuf (w + 1) (bs.drop 4) := by
  match bs with
  | [] => exact absurd rfl h
  | [_] | [_, _] | [_, _, _] | _ :: _ :: _ :: _ :: _ => rfl

theorem targetAt_offset_buf {c : Config} {w : Nat} (h : 4 * w < c.msgBufBytes) :
    targetAt c (Target.buf w).offset = some (.buf w) :=
  (bufOffset_spec rfl (Nat.add_lt_add_left h _)).2

/-- The run of LDBUF over the `n` words that its bytes fill: what BUF reads as afterwards, and the frame. -/
theorem runFor_ldBuf (n : Nat) {s : State} {w : Nat} {bs : List Byte} {rest : List Input} (hb : s.busy = false)
    (hn : (bs.length + 3) / 4 = n) (hfit : 4 * w + 4 * n ≤ s.cfg.msgBufBytes) :
    ∃ m as,
      runFor n (withInputs ((ldBuf w bs).map Input.host ++ rest) s) =
        .next { s with buf := m, inputs := rest, answers := as } ∧
      ∀ a, m.read a = if 4 * w ≤ a ∧ a < 4 * w + 4 * n then some (bs.getD (a - 4 * w) 0) else s.buf.read a := by
  induction n generalizing s w bs with
  | zero =>
    obtain rfl : bs = [] := List.eq_nil_of_length_eq_zero (by omega)
    exact ⟨s.buf, s.answers, rfl, fun a => (if_neg (by omega)).symm⟩
  | succ n ih =>
    have hne : bs ≠ [] := List.ne_nil_of_length_pos (by omega)
    obtain ⟨m, as, hrun, hread⟩ := ih (w := w + 1) (bs := bs.drop 4)
      (s := answer .okay { s with buf := writeBufWord s.buf w (leadingWord bs) }) hb (by rw [List.length_drop]; omega)
      (show 4 * (w + 1) + 4 * n ≤ s.cfg.msgBufBytes by omega)
    refine ⟨m, as, ?_, fun a => ?_⟩
    · rw [ldBuf_of_ne_nil w hne, List.map_cons, List.cons_append,
        runFor_next (step_wr (targetAt_offset_buf (by omega)) _ _), writeTarget_buf_idle hb]
      exact hrun
    · rw [hread, answer_buf, read_writeBufWord]
      by_cases hfirst : 4 * w ≤ a ∧ a < 4 * w + 4
      · rw [if_neg (by omega), if_pos hfirst, if_pos (by omega), wordByte_leadingWord bs (by omega)]
      · rw [if_neg hfirst]
        by_cases htail : 4 * (w + 1) ≤ a ∧ a < 4 * (w + 1) + 4 * n
        · have hindex : 4 + (a - 4 * (w + 1)) = a - 4 * w := by omega
          rw [if_pos htail, if_pos (by omega), List.getD_eq_getElem?_getD, List.getElem?_drop, hindex,
            List.getD_eq_getElem?_getD]
        · rw [if_neg htail, if_neg (by omega)]

/-- Settles O47, by the run of LDBUF over the words its bytes fill. -/
theorem loadBufferPseudoInstruction : Obligations.LoadBufferPseudoInstruction := by
  intro s w bs rest hb hfit hin
  obtain ⟨m, as, hrun, hread⟩ := runFor_ldBuf _ (rest := rest) hb rfl hfit
  rw [← hin, withInputs_self] at hrun
  refine ⟨_, hrun, rfl, fun i hi => ?_, fun a ha => ?_⟩
  · rw [hread, if_pos (by omega), Nat.add_sub_cancel_left]
  · rw [hread, if_neg (by omega)]

end Sys2Proof.Machine
end

section
/-! The word transforms of the cipher (spec/40_cipher_primitive.md R57 to R59): the S-box as a permutation, the byte lanes of
tau, and the bits of the diffusion transforms. -/

namespace Sys2Proof.Machine

/-! ### The S-box -/

/-- R57's table lists no byte twice. -/
theorem sbox_table_nodup : (List.ofFn fun i : Fin 256 => sbox (.ofFin i)).Nodup := by decide +kernel

theorem sbox_injective : Function.Injective sbox := fun _ _ h =>
  BitVec.eq_of_toFin_eq (List.nodup_ofFn.1 sbox_table_nodup h)

/-- Settles O22: the table has no repetition, and the four named entries are read off. -/
theorem sboxIsAPermutation : Obligations.SboxIsAPermutation :=
  ⟨fun _ _ h => sbox_injective h, by decide⟩

/-! ### tau -/

/-- The byte lane at bit 8j is the byte at the big-endian index 3-j (R40, R58). -/
theorem extractLsb'_eq_wordByte (w : Word) {j : Nat} (hj : j < 4) : w.extractLsb' (8 * j) 8 = wordByte w (3 - j) := by
  rw [wordByte, show 24 - 8 * (3 - j) = 8 * j by omega]

theorem wordByte_tau (a : Word) {j : Nat} (hj : j < 4) : wordByte (tau a) j = sbox (wordByte a j) :=
  wordByte_wordOfBytes (fun i => sbox (wordByte a i)) j hj

/-- Settles O23, by the bytes of tau. -/
theorem tauSubstitutesEachLane : Obligations.TauSubstitutesEachLane := by
  refine ⟨fun a j hj => ?_, by decide⟩
  rw [extractLsb'_eq_wordByte _ hj, extractLsb'_eq_wordByte _ hj, wordByte_tau a (by omega)]

/-! ### The diffusion transforms -/

theorem rotl32_xor (a b : Word) {n : Nat} (hn : n < 32) : rotl32 (a ^^^ b) n = rotl32 a n ^^^ rotl32 b n := by
  apply BitVec.eq_of_getLsbD_eq
  intro i hi
  simp only [BitVec.getLsbD_xor, rotl32_getLsbD _ n i hn hi]

theorem diffuse_xor (a b : Word) : diffuse (a ^^^ b) = diffuse a ^^^ diffuse b := by
  simp only [diffuse, rotl32_xor, Nat.reduceLT]
  ac_rfl

theorem diffuse_getLsbD (b : Word) {i : Nat} (hi : i < 32) :
    (diffuse b).getLsbD i = (b.getLsbD i ^^ b.getLsbD ((i + 30) % 32) ^^ b.getLsbD ((i + 22) % 32) ^^
      b.getLsbD ((i + 14) % 32) ^^ b.getLsbD ((i + 8) % 32)) := by
  simp only [diffuse, BitVec.getLsbD_xor, rotl32_getLsbD, hi, Nat.reduceLT]
  rfl

theorem diffuseKey_getLsbD (b : Word) {i : Nat} (hi : i < 32) :
    (diffuseKey b).getLsbD i = (b.getLsbD i ^^ b.getLsbD ((i + 19) % 32) ^^ b.getLsbD ((i + 9) % 32)) := by
  simp only [diffuseKey, BitVec.getLsbD_xor, rotl32_getLsbD, hi, Nat.reduceLT]
  rfl

/-- Settles O24: the bits of a rotation give the bits of L and L', and L is linear because every rotation is. -/
theorem diffusionBits : Obligations.DiffusionBits :=
  ⟨fun b _ hi => ⟨diffuse_getLsbD b hi, diffuseKey_getLsbD b hi⟩, diffuse_xor, by decide⟩

end Sys2Proof.Machine
end

section
/-! Block encryption and decryption (spec/40_cipher_primitive.md R61 to R67): the rounds as a window that slides over the
words X[i], the two commands in the words of R62, and the round trip. -/

namespace Sys2Proof.Machine

/-! ### The rounds as a sliding window -/

/-- The word quadruple before round `n`, in the indexed form of R61: X[n] to X[n+3]. -/
def roundWindow (q : Quad) (k : Nat → Word) (n : Nat) : Quad :=
  ⟨roundWord q k n, roundWord q k (n + 1), roundWord q k (n + 2), roundWord q k (n + 3)⟩

theorem cipherRound_roundWindow (q : Quad) (k : Nat → Word) (n : Nat) :
    cipherRound (roundWindow q k n) (k n) = roundWindow q k (n + 1) := rfl

theorem foldl_cipherRound_range (q : Quad) (k : Nat → Word) (n : Nat) :
    ((List.range n).map k).foldl cipherRound q = roundWindow q k n := by
  induction n with
  | zero => rfl
  | succ n ih =>
    rw [List.range_succ, List.map_append, List.foldl_append, ih]
    exact cipherRound_roundWindow q k n

/-- `SM4Crypt` in the indexed form of R62. -/
theorem words_sm4Crypt (q : Quad) (k : Nat → Word) :
    words (sm4Crypt (unwords q) ((List.range 32).map k)) =
      ⟨roundWord q k 35, roundWord q k 34, roundWord q k 33, roundWord q k 32⟩ := by
  rw [sm4Crypt, words_unwords, words_unwords, foldl_cipherRound_range]
  rfl

theorem toList_eq_map_range (rk : Vector Word 32) :
    rk.toList = (List.range 32).map fun i => rk.toList.getD i 0 := by
  refine List.ext_getElem (by simp) fun i hi _ => ?_
  rw [Vector.length_toList] at hi
  simp [hi]

theorem toList_reverse_eq_map_range (rk : Vector Word 32) :
    rk.toList.reverse = (List.range 32).map fun i => rk.toList.getD (31 - i) 0 := by
  refine List.ext_getElem (by simp) fun i _ _ => ?_
  have hlt : 31 - i < 32 := by omega
  simp [hlt]

theorem words_encryptBlock (rk : Vector Word 32) (q : Quad) :
    let x := roundWord q fun i => rk.toList.getD i 0
    words (encryptBlock rk (unwords q)) = ⟨x 35, x 34, x 33, x 32⟩ := by
  have h := words_sm4Crypt q fun i => rk.toList.getD i 0
  rwa [← toList_eq_map_range] at h

theorem words_decryptBlock (rk : Vector Word 32) (q : Quad) :
    let x := roundWord q fun i => rk.toList.getD (31 - i) 0
    words (decryptBlock rk (unwords q)) = ⟨x 35, x 34, x 33, x 32⟩ := by
  have h := words_sm4Crypt q fun i => rk.toList.getD (31 - i) 0
  rwa [← toList_reverse_eq_map_range] at h

/-- Settles O12: the command stores the words of E(DIN). -/
theorem encblkWritesTheCiphertext : Obligations.EncblkWritesTheCiphertext := by
  intro s hk x
  rw [← words_encryptBlock]
  exact execEncblk_keyed hk

/-- Settles O13: the command stores the words of D(DIN). -/
theorem decblkWritesThePlaintext : Obligations.DecblkWritesThePlaintext := by
  intro s hk x
  rw [← words_decryptBlock]
  exact execDecblk_keyed hk

/-! ### The round trip -/

/-- `SM4Crypt` under the reversed keys undoes it (R67). -/
theorem sm4Crypt_reverse (b : Block) (ks : List Word) : sm4Crypt (sm4Crypt b ks) ks.reverse = b := by
  simp only [sm4Crypt, words_unwords, foldl_cipherRound_reverse, reverseQuad_reverseQuad, unwords_words]

@[simp] theorem decryptBlock_encryptBlock (rk : Vector Word 32) (b : Block) :
    decryptBlock rk (encryptBlock rk b) = b :=
  sm4Crypt_reverse b rk.toList

@[simp] theorem encryptBlock_decryptBlock (rk : Vector Word 32) (b : Block) :
    encryptBlock rk (decryptBlock rk b) = b := by
  have h := sm4Crypt_reverse b rk.toList.reverse
  rwa [List.reverse_reverse] at h

/-- Settles O25: each command stores the words of its block function, and the second undoes the first. -/
theorem cipherRoundTrip : Obligations.CipherRoundTrip := by
  refine ⟨fun rk b => ⟨decryptBlock_encryptBlock rk b, encryptBlock_decryptBlock rk b⟩, fun s hk => ⟨?_, ?_⟩⟩
  · refine ⟨_, _, execEncblk_keyed hk, execDecblk_keyed hk, ?_, rfl⟩
    simp
  · refine ⟨_, _, execDecblk_keyed hk, execEncblk_keyed hk, ?_, rfl⟩
    simp

end Sys2Proof.Machine
end

section
/-! The key schedule (spec/41_key_schedule.md R73, R74): its rounds as a window that slides over the words Kw[i], and KEYSCHED
in the words of R73. -/

namespace Sys2Proof.Machine

/-- The word quadruple before round `i` of the key schedule, in the indexed form of R73: Kw[i] to Kw[i+3]. -/
def keyWindow (mk : Quad) (i : Nat) : Quad :=
  ⟨keyWord mk i, keyWord mk (i + 1), keyWord mk (i + 2), keyWord mk (i + 3)⟩

theorem keyStart_unwords (mk : Quad) : keyStart (unwords mk) = keyWindow mk 0 := by
  rw [keyStart, words_unwords]
  rfl

/-- One round yields the next word of R73 and slides the window by one. -/
theorem keyRounds_keyWindow_succ (mk : Quad) (i n : Nat) :
    keyRounds i (keyWindow mk i) (n + 1) = keyWord mk (i + 4) :: keyRounds (i + 1) (keyWindow mk (i + 1)) n := rfl

theorem keyRounds_keyWindow (mk : Quad) (i n : Nat) :
    keyRounds i (keyWindow mk i) n = (List.range' i n).map fun j => keyWord mk (j + 4) := by
  induction n generalizing i with
  | zero => rfl
  | succ n ih => rw [keyRounds_keyWindow_succ, ih, List.range'_succ, List.map_cons]

/-- `Schedule(K)` in the indexed form of R73: round key `i` is Kw[i+4]. -/
theorem schedule_unwords (mk : Quad) :
    schedule (unwords mk) = Vector.ofFn fun i => keyWord mk (i.val + 4) := by
  apply Vector.toList_inj.1
  rw [schedule_toList, keyStart_unwords, keyRounds_keyWindow]
  exact List.ext_getElem (by simp) fun i _ _ => by simp

/-- Settles O11: the command stores the schedule of KEY, and the schedule is the recurrence of R73. -/
theorem keyschedWritesTheSchedule : Obligations.KeyschedWritesTheSchedule := by
  intro s
  rw [← schedule_unwords]
  rfl

end Sys2Proof.Machine
end

section
/-! The counter blocks (spec/42_aead_mode.md R75 to R77, R88): the 32-bit increment, and why no keystream block is used twice
inside one command. -/

namespace Sys2Proof.Machine

theorem inc32_append (n : BitVec 96) (c : Word) : inc32 (n ++ c) = n ++ (c + 1) := by
  have hlow : blockWord (n ++ c) 3 = c := extractLsb'_append_low n c
  rw [inc32, hlow, extractLsb'_append_high]

theorem blockWord_inc32 (y : Block) : blockWord (inc32 y) 3 = blockWord y 3 + 1 :=
  extractLsb'_append_low (y.extractLsb' 32 96) (blockWord y 3 + 1)

/-- The increment has no carry into byte 11 (R76). -/
theorem getLsbD_inc32 (y : Block) {k : Nat} (hk : 32 ≤ k) (hk' : k < 128) : (inc32 y).getLsbD k = y.getLsbD k := by
  have happend : (inc32 y).getLsbD k = if k < 32 then _ else (y.extractLsb' 32 96).getLsbD (k - 32) :=
    BitVec.getLsbD_append
  rw [happend, if_neg (by omega), BitVec.getLsbD_extractLsb', decide_eq_true (by omega), Bool.true_and,
    Nat.add_sub_cancel' hk]

theorem blockByte_inc32 (y : Block) {i : Nat} (hi : i < 12) : blockByte (inc32 y) i = blockByte y i := by
  apply BitVec.eq_of_getLsbD_eq
  intro k hk
  rw [getLsbD_blockByte _ _ _ hk, getLsbD_blockByte _ _ _ hk, getLsbD_inc32 y (by omega) (by omega)]

/-- Settles O26: the increment acts on the low word of a block, which in a counter block is the counter. -/
theorem counterIncrement : Obligations.CounterIncrement := by
  refine ⟨fun y => ⟨fun i hi => blockByte_inc32 y hi, ?_⟩, fun n j => ?_, fun n => inc32_append n _⟩
  · rw [blockWord_inc32, BitVec.toNat_add]
    rfl
  · exact (inc32_append n _).trans (congrArg (n ++ ·) (BitVec.ofNat_add (1 + j) 1).symm)

/-- The counter of block `j` does not wrap inside the range of LEN (R88). -/
theorem counterBlock_count_toNat (n : BitVec 96) {j : Nat} (hj : 1 + j < 2 ^ 32) :
    (blockWord (counterBlock n j) 3).toNat = 1 + j := by
  rw [counterBlock_count, BitVec.toNat_ofNat, Nat.mod_eq_of_lt hj]

theorem encryptBlock_injective (rk : Vector Word 32) : Function.Injective (encryptBlock rk) :=
  Function.LeftInverse.injective (decryptBlock_encryptBlock rk)

theorem blockCount_le {c : Config} (hc : c.wf) {n : Nat} (hn : n ≤ c.msgBufBytes) :
    blockCount n ≤ c.msgBufBytes / 16 ∧ c.msgBufBytes / 16 ≤ 2 ^ 20 := by
  obtain ⟨hmod, -, hmax⟩ := hc
  rw [blockCount]
  omega

/-- Settles O27: the counters are 1 + j without a wrap, so the counter blocks differ, and E is injective. -/
theorem keystreamBlocksAreDistinct : Obligations.KeystreamBlocksAreDistinct := by
  intro s hc hl
  obtain ⟨hcount, hmax⟩ := blockCount_le hc hl
  refine ⟨hcount, hmax, fun j k hj hk => ?_⟩
  have hcj := counterBlock_count_toNat (nonceBits s.nonce) (j := j) (by omega)
  have hck := counterBlock_count_toNat (nonceBits s.nonce) (j := k) (by omega)
  refine ⟨hcj, by omega, fun hjk => ?_⟩
  have hne : counterBlock (nonceBits s.nonce) j ≠ counterBlock (nonceBits s.nonce) k := by
    intro h
    rw [h] at hcj
    omega
  exact ⟨hne, (encryptBlock_injective s.rk).ne hne⟩

end Sys2Proof.Machine
end

section
/-! The multiplier of GF(2^128) (spec/42_aead_mode.md R79): a block read as a polynomial over GF(2) modulo the
polynomial of R79, where the XOR of blocks is the sum and the multiplier is the product. -/

namespace Sys2Proof.Machine

open Polynomial

/-! ### Blocks as polynomials -/

/-- The polynomial of a block: the coefficient of x^i is bit `127 - i` (R79). -/
noncomputable def gfPoly (b : Block) : (ZMod 2)[X] :=
  ∑ i ∈ Finset.range 128, if b.getLsbD (127 - i) then X ^ i else 0

/-- The reduction polynomial of R79. Irreducible as a definition, since nothing below may compute its power of X: proofs use
`gfModulus_eq`. -/
@[irreducible] noncomputable def gfModulus : (ZMod 2)[X] := X ^ 128 + X ^ 7 + X ^ 2 + X + 1

theorem gfModulus_eq : gfModulus = X ^ 128 + X ^ 7 + X ^ 2 + X + 1 := by
  unfold gfModulus
  rfl

theorem gfPoly_xor (a b : Block) : gfPoly (a ^^^ b) = gfPoly a + gfPoly b := by
  simp only [gfPoly, ← Finset.sum_add_distrib, BitVec.getLsbD_xor]
  refine Finset.sum_congr rfl fun i _ => ?_
  cases a.getLsbD (127 - i) <;> cases b.getLsbD (127 - i) <;> simp [CharTwo.add_self_eq_zero]

theorem coeff_gfPoly (b : Block) {i : Nat} (hi : i < 128) :
    (gfPoly b).coeff i = if b.getLsbD (127 - i) then 1 else 0 := by
  rw [gfPoly, finsetSum_coeff, Finset.sum_eq_single_of_mem i (Finset.mem_range.2 hi)]
  · split <;> simp
  · intro j _ hj
    split <;> simp [coeff_X_pow, hj.symm]

theorem degree_gfPoly_lt (b : Block) : (gfPoly b).degree < 128 := by
  rw [gfPoly]
  refine (degree_sum_le _ _).trans_lt ((Finset.sup_lt_iff (by decide)).2 fun i hi => ?_)
  have hlt : i < 128 := Finset.mem_range.1 hi
  split
  · rw [degree_X_pow]
    exact_mod_cast hlt
  · exact WithBot.bot_lt_coe 128

theorem gfPoly_eq_zero {b : Block} (h : gfPoly b = 0) : b = 0 := by
  apply BitVec.eq_of_getLsbD_eq
  intro k hk
  have hcoeff := coeff_gfPoly b (i := 127 - k) (by omega)
  rw [show 127 - (127 - k) = k by omega, h] at hcoeff
  simpa using hcoeff

theorem degree_gfModulus : gfModulus.degree = 128 := by
  have hlow : (X ^ 7 + (X ^ 2 + (X + 1)) : (ZMod 2)[X]).degree ≤ 7 := by compute_degree
  rw [gfModulus_eq, add_assoc, add_assoc, add_assoc, degree_add_eq_left_of_degree_lt, degree_X_pow]
  · rfl
  · rw [degree_X_pow]
    exact hlow.trans_lt (by decide)

/-! ### Blocks modulo the polynomial -/

/-- The element of GF(2^128) that a block stands for: its polynomial modulo `gfModulus` (R79). -/
noncomputable def gfElem (b : Block) : AdjoinRoot gfModulus := AdjoinRoot.mk gfModulus (gfPoly b)

/-- x modulo `gfModulus`. -/
noncomputable def gfRoot : AdjoinRoot gfModulus := AdjoinRoot.root gfModulus

theorem gfElem_eq_sum (b : Block) :
    gfElem b = ∑ i ∈ Finset.range 128, if b.getLsbD (127 - i) then gfRoot ^ i else 0 := by
  rw [gfElem, gfPoly, map_sum]
  refine Finset.sum_congr rfl fun i _ => ?_
  split
  · rw [map_pow, AdjoinRoot.mk_X, gfRoot]
  · exact map_zero _

@[simp] theorem gfElem_xor (a b : Block) : gfElem (a ^^^ b) = gfElem a + gfElem b := by
  rw [gfElem, gfPoly_xor, map_add]
  rfl

@[simp] theorem gfElem_zero : gfElem 0 = 0 := by simp [gfElem_eq_sum]

/-- A block has fewer coefficients than the degree of the modulus, so it is determined by its element. -/
theorem gfElem_injective : Function.Injective gfElem := by
  intro a b h
  have hsum : gfElem (a ^^^ b) = gfElem (b ^^^ b) := by rw [gfElem_xor, gfElem_xor, h]
  rw [BitVec.xor_self] at hsum
  have hdvd : gfModulus ∣ gfPoly (a ^^^ b) := AdjoinRoot.mk_eq_zero.1 (hsum.trans gfElem_zero)
  have hzero := eq_zero_of_dvd_of_degree_lt hdvd ((degree_gfPoly_lt _).trans_eq degree_gfModulus.symm)
  exact BitVec.xor_eq_zero_iff.1 (gfPoly_eq_zero hzero)

/-- A block is the sum of the powers of x at its one bits. -/
theorem gfElem_eq_sum_ones {b : Block} {ones : Finset Nat}
    (h : (Finset.range 128).filter (fun i => b.getLsbD (127 - i) = true) = ones) :
    gfElem b = ∑ i ∈ ones, gfRoot ^ i := by
  rw [gfElem_eq_sum, ← h, Finset.sum_filter]

@[simp] theorem gfElem_one : gfElem 0x80000000000000000000000000000000 = 1 :=
  (gfElem_eq_sum_ones (ones := {0}) (by decide +kernel)).trans (by simp)

theorem gfRoot_pow_128 : gfRoot ^ 128 = 1 + gfRoot + gfRoot ^ 2 + gfRoot ^ 7 := by
  have hmk : AdjoinRoot.mk gfModulus (X ^ 128) = AdjoinRoot.mk gfModulus (1 + X + X ^ 2 + X ^ 7) := by
    refine AdjoinRoot.mk_eq_mk.2 (dvd_of_eq ?_)
    rw [CharTwo.sub_eq_add, gfModulus_eq]
    ring
  simpa [gfRoot] using hmk

/-- The constant R is x^128 reduced (R79). -/
theorem gfElem_gfR : gfElem gfR = gfRoot ^ 128 := by
  rw [gfElem_eq_sum_ones (ones := {0, 1, 2, 7}) (by decide +kernel), gfRoot_pow_128]
  simp [add_assoc]

/-! ### The multiplier -/

/-- One right shift multiplies by x and loses the coefficient of x^127. -/
theorem gfRoot_mul_gfElem (v : Block) :
    gfRoot * gfElem v = gfElem (v >>> 1) + if v.getLsbD 0 then gfRoot ^ 128 else 0 := by
  have hshift : gfElem (v >>> 1) = ∑ i ∈ Finset.range 127, if v.getLsbD (127 - i) then gfRoot ^ (i + 1) else 0 := by
    rw [gfElem_eq_sum, Finset.sum_range_succ', if_neg (by simp), add_zero]
    refine Finset.sum_congr rfl fun i hi => ?_
    rw [BitVec.getLsbD_ushiftRight, show 1 + (127 - (i + 1)) = 127 - i by have := Finset.mem_range.1 hi; omega]
  rw [hshift, gfElem_eq_sum, Finset.mul_sum, Finset.sum_range_succ]
  simp only [mul_ite, mul_zero, ← pow_succ', Nat.sub_self]

/-- The step of `v` in R79 multiplies by x. -/
theorem gfElem_gfShift (v : Block) : gfElem (gfShift v) = gfRoot * gfElem v := by
  rw [gfRoot_mul_gfElem, gfShift]
  split
  · rw [gfElem_xor, gfElem_gfR]
  · rw [add_zero]

/-- The loop adds the products of `v` with the coefficients of the bits of `x` that it still has to look at. -/
theorem gfElem_gfLoop (x : Block) (n : Nat) (v z : Block) :
    gfElem (gfLoop x n v z) =
      gfElem z + gfElem v * ∑ i ∈ Finset.range n, if x.getLsbD (n - 1 - i) then gfRoot ^ i else 0 := by
  induction n generalizing v z with
  | zero => simp [gfLoop]
  | succ n ih =>
    have hbit : gfElem (if x.getLsbD n then z ^^^ v else z) =
        gfElem z + gfElem v * if x.getLsbD n then 1 else 0 := by
      split <;> simp
    have hsum : ∑ i ∈ Finset.range (n + 1), (if x.getLsbD (n + 1 - 1 - i) then gfRoot ^ i else 0) =
        gfRoot * (∑ i ∈ Finset.range n, if x.getLsbD (n - 1 - i) then gfRoot ^ i else 0) +
          if x.getLsbD n then 1 else 0 := by
      rw [Finset.sum_range_succ', Finset.mul_sum]
      simp only [mul_ite, mul_zero, ← pow_succ', pow_zero, Nat.add_sub_cancel, Nat.sub_zero, Nat.sub_sub,
        Nat.add_comm 1]
    rw [gfLoop, ih, gfElem_gfShift, hbit, hsum]
    ring

@[simp] theorem gfElem_gfMul (x y : Block) : gfElem (gfMul x y) = gfElem x * gfElem y := by
  rw [gfMul_eq, gfElem_gfLoop, gfElem_zero, zero_add, mul_comm, gfElem_eq_sum x]

/-- Settles O28: two polynomials with the same element differ by a multiple of the modulus. -/
theorem gfMulIsThePolynomialProduct : Obligations.GfMulIsThePolynomialProduct := by
  intro x y poly
  have hpoly (b : Block) : poly b = gfPoly b := rfl
  have hmul : AdjoinRoot.mk gfModulus (gfPoly x * gfPoly y) = AdjoinRoot.mk gfModulus (gfPoly (gfMul x y)) := by
    rw [map_mul]
    exact (gfElem_gfMul x y).symm
  rw [← gfModulus_eq, hpoly, hpoly, hpoly]
  exact AdjoinRoot.mk_eq_mk.1 hmul

/-- Settles O29: the two blocks are the one and the zero of GF(2^128). -/
theorem gfMulIdentityAndZero : Obligations.GfMulIdentityAndZero := by
  intro x
  refine ⟨gfElem_injective ?_, gfElem_injective ?_, gfElem_injective ?_, gfElem_injective ?_⟩
  · rw [gfElem_gfMul, gfElem_one, mul_one]
  · rw [gfElem_gfMul, gfElem_one, one_mul]
  · rw [gfElem_gfMul, gfElem_zero, mul_zero]
  · rw [gfElem_gfMul, gfElem_zero, zero_mul]

/-- Settles O30: the laws are those of the product and the sum in GF(2^128). -/
theorem gfMulAlgebra : Obligations.GfMulAlgebra := by
  intro x y z
  refine ⟨gfElem_injective ?_, gfElem_injective ?_, gfElem_injective ?_⟩
  · rw [gfElem_gfMul, gfElem_gfMul, mul_comm]
  · simp only [gfElem_gfMul, mul_assoc]
  · simp only [gfElem_gfMul, gfElem_xor, mul_add]

end Sys2Proof.Machine
end

section
/-! SEAL and OPEN on a message whose bytes are known (spec/42_aead_mode.md R77 to R86): the machine's byte lists in the rules'
indexed forms, and the commands in these words. -/

namespace Sys2Proof.Machine

/-! ### The comparison -/

/-- Settles O31: the comparison decides equality of blocks, and a block is its 16 bytes. -/
theorem ctEqualComparesEveryByte : Obligations.CtEqualComparesEveryByte := by
  intro a b
  rw [ctEqual_iff]
  exact ⟨fun h _ _ => congrArg (blockByte · _) h, block_ext⟩

/-! ### The indexed forms -/

theorem keystreamXor_map_range (rk : Vector Word 32) (n : BitVec 96) (p : Nat → Byte) (len : Nat) :
    keystreamXor rk n ((List.range len).map p) = (List.range len).map fun i => p i ^^^ keystreamByte rk n i := by
  refine List.ext_getElem? fun i => ?_
  rw [keystreamXor_getElem?]
  by_cases hi : i < len
  · simp [hi, keystreamByte, counterBlock]
  · simp [hi]

/-- Block `j` of the partition, padded (R77). -/
theorem padBlock_map_range (c : Nat → Byte) (n j : Nat) :
    padBlock ((((List.range n).map c).drop (16 * j)).take 16) = messageBlock c n j := by
  refine block_ext fun i hi => ?_
  rw [blockByte_padBlock _ (List.length_take_le _ _) i hi, messageBlock, blockByte_padBlock _ (by simp) i hi]
  by_cases hin : 16 * j + i < n
  · simp [hi, hin]
  · simp [hi, hin]

/-- The accumulator after the first `j` blocks (R81). -/
theorem foldl_foldBlock_take (h : Block) (c : Nat → Byte) (n nb : Nat) {j : Nat} (hj : j ≤ nb) :
    ((takeBlocks ((List.range n).map c) nb).take j).foldl (foldBlock h) h = accumulatorAt h c n j := by
  induction j with
  | zero => rfl
  | succ j ih =>
    rw [List.take_add_one, takeBlocks_getElem? nb j _ hj, List.foldl_append, ih (by omega)]
    simp only [Option.toList_some, List.foldl_cons, List.foldl_nil, foldBlock, padBlock_map_range, accumulatorAt]

theorem accumulate_map_range (h : Block) (c : Nat → Byte) (n : Nat) :
    accumulate h ((List.range n).map c) = accumulatorAt h c n ((n + 15) / 16) := by
  have hlen : blockCount ((List.range n).map c).length = (n + 15) / 16 := by
    rw [List.length_map, List.length_range]
    rfl
  rw [accumulate, blocksOf, hlen, ← foldl_foldBlock_take h c n _ le_rfl, List.take_of_length_le]
  exact (takeBlocks_length _ _).le

/-- The tag of a message that LEN can name (R83). -/
theorem authTag_map_range (rk : Vector Word 32) (c : Nat → Byte) (len : Word) :
    authTag rk ((List.range len.toNat).map c) = tagOf rk c len.toNat := by
  rw [authTag, accumulate_map_range, List.length_map, List.length_range, lenBlock_eq len.isLt]
  rfl

theorem read_memWrite_map_range (m : Memory) (c : Nat → Byte) (n a : Nat) :
    (memWrite m 0 ((List.range n).map c)).read a = if a < n then some (c a) else m.read a := by
  rw [read_memWrite]
  by_cases ha : a < n
  · simp [ha]
  · simp [ha]

/-! ### The commands -/

/-- What SEAL and OPEN store for a message with bytes `p`: its XOR with the keystream in [0, LEN), and nothing outside
(R41, R78). -/
theorem read_memWrite_keystreamXor (s : State) (p : Nat → Byte) :
    let m := memWrite s.buf 0 (keystreamXor s.rk (nonceBits s.nonce) ((List.range s.len.toNat).map p))
    (∀ i, i < s.len.toNat → m.read i = some (p i ^^^ keystreamByte s.rk (nonceBits s.nonce) i)) ∧
    (∀ a, s.len.toNat ≤ a → m.read a = s.buf.read a) := by
  simp only [keystreamXor_map_range, read_memWrite_map_range]
  exact ⟨fun i hi => if_pos hi, fun a ha => if_neg (Nat.not_lt.2 ha)⟩

/-- Settles O14: SEAL of the message that it reads, in the indexed forms. -/
theorem sealEncryptsAndAuthenticates : Obligations.SealEncryptsAndAuthenticates := by
  intro s p hk hl hp c
  refine ⟨_, ?_, read_memWrite_keystreamXor s p⟩
  rw [← authTag_map_range, ← keystreamXor_map_range]
  exact execSeal_read hk hl (memRead_of_bytes hp)

/-- Settles O15: OPEN of the message that it reads, in the indexed forms. -/
theorem openDecryptsWhenTheTagMatches : Obligations.OpenDecryptsWhenTheTagMatches := by
  intro s c hk hl hc ht
  rw [← authTag_map_range] at ht
  exact ⟨_, execOpen_match hk hl (memRead_of_bytes hc) ht.symm, read_memWrite_keystreamXor s c⟩

/-- Settles O16: OPEN of the message that it reads, in the indexed forms. -/
theorem openRejectsAWrongTag : Obligations.OpenRejectsAWrongTag := by
  intro s c hk hl hc ht
  rw [← authTag_map_range] at ht
  exact execOpen_mismatch hk hl (memRead_of_bytes hc) ht.symm

end Sys2Proof.Machine
end

section
/-! How SEAL and OPEN answer each other (spec/42_aead_mode.md R83 to R86): the round trip, the second SEAL, other tags, other
nonces, and the empty message. -/

namespace Sys2Proof.Machine

/-! ### Commands that complete with OK -/

/-- A SEAL that completes with OK (R85). -/
theorem execSeal_ok {s t : State} (h : exec .sealMsg s = .next t) (he : t.err = 0x0) :
    s.keyValid = true ∧ s.len.toNat ≤ s.cfg.msgBufBytes ∧ ∃ p, memRead s.buf 0 s.len.toNat = some p ∧
      t = complete .ok { s with
        buf := memWrite s.buf 0 (keystreamXor s.rk (nonceBits s.nonce) p),
        tag := words (authTag s.rk (keystreamXor s.rk (nonceBits s.nonce) p)) } := by
  rcases execSeal_cases s with ⟨-, hx⟩ | ⟨-, -, hx⟩ | ⟨-, -, -, hx⟩ | ⟨hk, hl, p, hp, hx⟩
  · cases hx.symm.trans h
    simp [ErrCode.bits] at he
  · cases hx.symm.trans h
    simp [ErrCode.bits] at he
  · cases hx.symm.trans h
  · cases hx.symm.trans h
    exact ⟨hk, hl, p, hp, rfl⟩

/-- An OPEN that completes with OK (R86). -/
theorem execOpen_ok {s t : State} (h : exec .openMsg s = .next t) (he : t.err = 0x0) :
    s.keyValid = true ∧ s.len.toNat ≤ s.cfg.msgBufBytes ∧ ∃ c, memRead s.buf 0 s.len.toNat = some c ∧
      authTag s.rk c = unwords s.tag := by
  rcases execOpen_cases s with ⟨-, hx⟩ | ⟨-, -, hx⟩ | ⟨-, -, -, hx⟩ | ⟨hk, hl, c, hc, ⟨ht, -⟩ | ⟨-, hx⟩⟩
  · cases hx.symm.trans h
    simp [ErrCode.bits] at he
  · cases hx.symm.trans h
    simp [ErrCode.bits] at he
  · cases hx.symm.trans h
  · exact ⟨hk, hl, c, hc, ht⟩
  · cases hx.symm.trans h
    simp [ErrCode.bits] at he

/-! ### SEAL undone -/

theorem memRead_memWrite (m : Memory) (a : Nat) (bs : List Byte) :
    memRead (memWrite m a bs) a bs.length = some bs := by
  refine (memRead_eq_some _ _ _ _).2 ⟨rfl, fun i hi => ?_⟩
  rw [read_memWrite, if_pos (by omega), Nat.add_sub_cancel_left]

/-- The ciphertext of a message, read back. -/
theorem memRead_sealed {m : Memory} {n : Nat} {p : List Byte} (hp : memRead m 0 n = some p) (rk : Vector Word 32)
    (nonce : BitVec 96) : memRead (memWrite m 0 (keystreamXor rk nonce p)) 0 n = some (keystreamXor rk nonce p) := by
  have h := memRead_memWrite m 0 (keystreamXor rk nonce p)
  rwa [keystreamXor_length, memRead_length hp] at h

/-- A second keystream XOR over the ciphertext stores the message again. -/
theorem read_keystreamXor_twice {m : Memory} {n : Nat} {p : List Byte} (hp : memRead m 0 n = some p)
    (rk : Vector Word 32) (nonce : BitVec 96) (a : Nat) :
    let c := keystreamXor rk nonce p
    (memWrite (memWrite m 0 c) 0 (keystreamXor rk nonce c)).read a = m.read a := by
  intro c
  obtain ⟨hlen, hread⟩ := (memRead_eq_some _ _ _ _).1 hp
  rw [keystreamXor_keystreamXor, read_memWrite, read_memWrite, keystreamXor_length, hlen]
  split
  · next ha => simpa using (hread a (by omega)).symm
  · rfl

/-- What a SEAL that completes with OK leaves: a readable message under its own tag, whose keystream XOR is BUF as it was
before. -/
theorem sealed_message {s t : State} (h : exec .sealMsg s = .next t) (he : t.err = 0x0) :
    t.keyValid = true ∧ t.len.toNat ≤ t.cfg.msgBufBytes ∧ ∃ c, memRead t.buf 0 t.len.toNat = some c ∧
      authTag t.rk c = unwords t.tag ∧
      ∀ a, (memWrite t.buf 0 (keystreamXor t.rk (nonceBits t.nonce) c)).read a = s.buf.read a := by
  obtain ⟨hk, hl, p, hp, rfl⟩ := execSeal_ok h he
  exact ⟨hk, hl, _, memRead_sealed hp s.rk (nonceBits s.nonce), (unwords_words _).symm,
    read_keystreamXor_twice hp s.rk (nonceBits s.nonce)⟩

/-- Settles O32: OPEN reads the ciphertext under its own tag, and the second keystream XOR undoes the first. -/
theorem openUndoesSeal : Obligations.OpenUndoesSeal := by
  intro s t h he
  obtain ⟨hk, hl, c, hc, ht, hback⟩ := sealed_message h he
  exact ⟨_, execOpen_match (s := { t with cmd := encode .openMsg, busy := true }) hk hl hc ht, hback⟩

/-- Settles O33: the second keystream XOR undoes the first. -/
theorem sealTwiceGivesThePlaintextBack : Obligations.SealTwiceGivesThePlaintextBack := by
  intro s t h he
  obtain ⟨hk, hl, c, hc, -, hback⟩ := sealed_message h he
  exact ⟨_, execSeal_read (s := { t with busy := true }) hk hl hc, rfl, hback⟩

/-! ### OPEN under another tag and another nonce -/

/-- Settles O34: the tag of the message is the one that TAG held, so it is no other. -/
theorem everyOtherTagFails : Obligations.EveryOtherTagFails := by
  intro s t g h he hg
  obtain ⟨hk, hl, c, hc, ht⟩ := execOpen_ok h he
  have hne : authTag s.rk c ≠ unwords g := fun hg' => hg (unwords_injective (hg'.symm.trans ht))
  exact execOpen_mismatch (s := { s with tag := g }) hk hl hc hne

/-- Settles O35: none of OPEN's checks reads NONCE. -/
theorem openOutcomeIgnoresTheNonce : Obligations.OpenOutcomeIgnoresTheNonce := by
  intro s t n h
  rcases execOpen_cases s with ⟨hk, hx⟩ | ⟨hk, hl, hx⟩ | ⟨-, -, -, hx⟩ | ⟨hk, hl, c, hc, ⟨ht, hx⟩ | ⟨ht, hx⟩⟩
  · cases hx.symm.trans h
    exact ⟨_, withKey_invalid (s := { s with nonce := n }) hk _, rfl⟩
  · cases hx.symm.trans h
    exact ⟨_, (withKey_valid (s := { s with nonce := n }) hk _).trans
      (withMessage_badLength (s := { s with nonce := n }) hl _), rfl⟩
  · cases hx.symm.trans h
  · cases hx.symm.trans h
    exact ⟨_, execOpen_match (s := { s with nonce := n }) hk hl hc ht, rfl⟩
  · cases hx.symm.trans h
    exact ⟨_, execOpen_mismatch (s := { s with nonce := n }) hk hl hc ht, rfl⟩

/-! ### The empty message -/

/-- The tag of the empty message is the hash subkey (R83). -/
theorem authTag_nil (rk : Vector Word 32) : authTag rk [] = encryptBlock rk 0 :=
  BitVec.xor_zero

theorem keystreamXor_nil (rk : Vector Word 32) (n : BitVec 96) : keystreamXor rk n [] = [] := rfl

theorem memRead_message_empty {s : State} (h : s.len = 0) : memRead s.buf 0 s.len.toNat = some [] := by
  rw [h]
  rfl

/-- Settles O36: the empty message has no block, so its tag is the hash subkey and nothing is stored. -/
theorem emptyMessage : Obligations.EmptyMessage := by
  intro s hk h0
  have hl : s.len.toNat ≤ s.cfg.msgBufBytes := by simp [h0]
  have hread := memRead_message_empty h0
  rw [← authTag_nil]
  constructor
  · have hseal := execSeal_read hk hl hread
    rw [keystreamXor_nil] at hseal
    exact hseal
  · split
    · next ht => exact execOpen_match hk hl hread ht.symm
    · next ht => exact execOpen_mismatch hk hl hread (Ne.symm ht)

end Sys2Proof.Machine
end

section
/-! The claim about the housekeeping command NOP (spec/43_misc_commands.md). -/

namespace Sys2Proof.Machine

/-- NOP is the completion alone (R89). -/
theorem exec_nop (s : State) : exec .nop s = .next (complete .ok s) := rfl

/-- Completing with OK clears ERR and BUSY (R12, R90). -/
theorem complete_ok (s : State) : complete .ok s = { s with err := 0x0, busy := false } := rfl

/-- Settles O10: NOP is the completion with OK, which writes ERR and BUSY only. -/
theorem nopCompletes : Obligations.NopCompletes := by
  intro s
  rw [exec_nop, complete_ok]

end Sys2Proof.Machine
end

section
/-! The completion codes and their causes (spec/60_exceptions.md R90 to R92): which code the engine step leaves, and that an
error code is its only effect. -/

namespace Sys2Proof.Machine

/-! ### The causes -/

/-- The cause of each error code at the engine step (R90), guarded by the checks before it (R92), so that at most one holds.
OK has no cause, and the other three codes are never raised. -/
def State.raises (s : State) : ErrCode → Prop
  | .illegalCmd => 0x06 ≤ s.cmd.toNat
  | .noKey => 0x02 ≤ s.cmd.toNat ∧ s.cmd.toNat ≤ 0x05 ∧ s.keyValid = false
  | .badLength => (s.cmd = encode .sealMsg ∨ s.cmd = encode .openMsg) ∧ s.keyValid = true ∧
      s.cfg.msgBufBytes < s.len.toNat
  | .authFail => s.cmd = encode .openMsg ∧ s.keyValid = true ∧ s.len.toNat ≤ s.cfg.msgBufBytes ∧
      ∃ c : Nat → Byte, (∀ i, i < s.len.toNat → s.buf.read i = some (c i)) ∧
        unwords s.tag ≠ tagOf s.rk c s.len.toNat
  | .ok | .invalidKeyLength | .invalidNonce | .invalidTagLength => False

/-- NO_KEY's range of words is that of the four keyed commands (R50). -/
theorem encode_keyed_iff (i : Instr) :
    (0x02 ≤ (encode i).toNat ∧ (encode i).toNat ≤ 0x05) ↔ i ≠ .nop ∧ i ≠ .keysched := by
  cases i <;> decide

theorem State.raises_noKey {s : State} {i : Instr} (hcmd : s.cmd = encode i) (hnop : i ≠ .nop) (hks : i ≠ .keysched)
    (hk : s.keyValid = false) : s.raises .noKey := by
  obtain ⟨hlo, hhi⟩ := (encode_keyed_iff i).2 ⟨hnop, hks⟩
  rw [← hcmd] at hlo hhi
  exact ⟨hlo, hhi, hk⟩

/-- A message read whole is a byte for each index below its length. -/
theorem bytes_of_memRead {m : Memory} {n : Nat} {bs : List Byte} (h : memRead m 0 n = some bs) :
    ∃ c : Nat → Byte, (∀ i, i < n → m.read i = some (c i)) ∧ bs = (List.range n).map c := by
  obtain ⟨hlen, hread⟩ := (memRead_eq_some m 0 n bs).1 h
  have hbytes : ∀ i, i < n → m.read i = some (bs.getD i 0) := fun i hi => by
    rw [← Nat.zero_add i, hread i hi, Nat.zero_add, List.getD_eq_getElem?_getD, List.getElem?_eq_getElem (by omega)]
    rfl
  exact ⟨fun i => bs.getD i 0, hbytes, Option.some.inj (h.symm.trans (memRead_of_bytes hbytes))⟩

theorem State.raises_authFail {s : State} {bs : List Byte} (hcmd : s.cmd = encode .openMsg) (hk : s.keyValid = true)
    (hl : s.len.toNat ≤ s.cfg.msgBufBytes) (hm : memRead s.buf 0 s.len.toNat = some bs)
    (ht : authTag s.rk bs ≠ unwords s.tag) : s.raises .authFail := by
  obtain ⟨c, hc, rfl⟩ := bytes_of_memRead hm
  rw [authTag_map_range] at ht
  exact ⟨hcmd, hk, hl, c, hc, ht.symm⟩

/-! ### The engine step -/

theorem engineStep_encode {s : State} {i : Instr} (h : s.cmd = encode i) : engineStep s = exec i s :=
  engineStep_ok (h ▸ decode_encode i)

/-- The cause of a code makes the engine step raise it, with no other effect (R91). -/
theorem engineStep_of_raises {s : State} {e : ErrCode} (h : s.raises e) : engineStep s = .next (complete e s) := by
  cases e with
  | illegalCmd =>
    obtain ⟨r, hr⟩ := decode_illegal h
    exact engineStep_error hr
  | noKey =>
    obtain ⟨hlo, hhi, hk⟩ := h
    obtain ⟨i, hi⟩ := decode_legal hhi
    have hcmd := eq_encode_of_decode hi
    rw [hcmd] at hlo hhi
    obtain ⟨hnop, hks⟩ := (encode_keyed_iff i).1 ⟨hlo, hhi⟩
    exact (engineStep_encode hcmd).trans (cipherCommandsNeedAKey i s hnop hks hk)
  | badLength =>
    obtain ⟨hcmd, hk, hl⟩ := h
    obtain ⟨hseal, hopen⟩ := messageCommandsRejectABadLength s hk hl
    rcases hcmd with hcmd | hcmd
    · exact (engineStep_encode hcmd).trans hseal
    · exact (engineStep_encode hcmd).trans hopen
  | authFail =>
    obtain ⟨hcmd, hk, hl, c, hc, ht⟩ := h
    exact (engineStep_encode hcmd).trans (openRejectsAWrongTag s c hk hl hc ht)
  | ok | invalidKeyLength | invalidNonce | invalidTagLength => exact h.elim

/-- A command that goes on completes with OK, or raises a code whose cause holds. -/
theorem exec_next_cause {i : Instr} {s t : State} (hcmd : s.cmd = encode i) (h : exec i s = .next t) :
    (∃ u, t = complete .ok u) ∨ ∃ e, s.raises e ∧ t = complete e s := by
  cases i with
  | nop | keysched =>
    cases h
    exact .inl ⟨_, rfl⟩
  | encblk =>
    rcases Bool.eq_false_or_eq_true s.keyValid with hk | hk
    · cases (execEncblk_keyed hk).symm.trans h
      exact .inl ⟨_, rfl⟩
    · cases (execEncblk_unkeyed hk).symm.trans h
      exact .inr ⟨.noKey, State.raises_noKey hcmd nofun nofun hk, rfl⟩
  | decblk =>
    rcases Bool.eq_false_or_eq_true s.keyValid with hk | hk
    · cases (execDecblk_keyed hk).symm.trans h
      exact .inl ⟨_, rfl⟩
    · cases (execDecblk_unkeyed hk).symm.trans h
      exact .inr ⟨.noKey, State.raises_noKey hcmd nofun nofun hk, rfl⟩
  | sealMsg =>
    rcases execSeal_cases s with ⟨hk, hx⟩ | ⟨hk, hl, hx⟩ | ⟨-, -, -, hx⟩ | ⟨-, -, p, -, hx⟩
    · cases hx.symm.trans h
      exact .inr ⟨.noKey, State.raises_noKey hcmd nofun nofun hk, rfl⟩
    · cases hx.symm.trans h
      exact .inr ⟨.badLength, ⟨.inl hcmd, hk, hl⟩, rfl⟩
    · cases hx.symm.trans h
    · cases hx.symm.trans h
      exact .inl ⟨_, rfl⟩
  | openMsg =>
    rcases execOpen_cases s with ⟨hk, hx⟩ | ⟨hk, hl, hx⟩ | ⟨-, -, -, hx⟩ | ⟨hk, hl, c, hc, ⟨-, hx⟩ | ⟨ht, hx⟩⟩
    · cases hx.symm.trans h
      exact .inr ⟨.noKey, State.raises_noKey hcmd nofun nofun hk, rfl⟩
    · cases hx.symm.trans h
      exact .inr ⟨.badLength, ⟨.inr hcmd, hk, hl⟩, rfl⟩
    · cases hx.symm.trans h
    · cases hx.symm.trans h
      exact .inl ⟨_, rfl⟩
    · cases hx.symm.trans h
      exact .inr ⟨.authFail, State.raises_authFail hcmd hk hl hc ht, rfl⟩

/-- Everything an engine step that goes on can do: complete with OK, or raise a code whose cause holds (R91). -/
theorem engineStep_next {s t : State} (h : engineStep s = .next t) :
    (∃ u, t = complete .ok u) ∨ ∃ e, s.raises e ∧ t = complete e s := by
  by_cases hill : 0x06 ≤ s.cmd.toNat
  · have hr : s.raises .illegalCmd := hill
    cases (engineStep_of_raises hr).symm.trans h
    exact .inr ⟨_, hr, rfl⟩
  · obtain ⟨i, hi⟩ := decode_legal (w := s.cmd) (by omega)
    exact exec_next_cause (eq_encode_of_decode hi) (engineStep_ok hi ▸ h)

/-! ### The code left in ERR -/

theorem ErrCode.bits_injective : Function.Injective ErrCode.bits := fun a b => by cases a <;> cases b <;> decide

/-- Only the codes 0 to 4 are raised (R90). -/
theorem State.bits_le_of_raises {s : State} {e : ErrCode} (h : s.raises e) : e.bits.toNat ≤ 4 := by
  cases e with
  | authFail | noKey | illegalCmd | badLength => decide
  | ok | invalidKeyLength | invalidNonce | invalidTagLength => exact h.elim

/-- An engine step leaves an error code exactly on its cause. -/
theorem engineStep_err_iff {s t : State} (h : engineStep s = .next t) {e : ErrCode} (he : e ≠ .ok) :
    t.err = e.bits ↔ s.raises e := by
  constructor
  · intro herr
    rcases engineStep_next h with ⟨u, rfl⟩ | ⟨e', hr, rfl⟩
    · exact absurd (ErrCode.bits_injective (a₁ := .ok) herr).symm he
    · rwa [← ErrCode.bits_injective (a₁ := e') herr]
  · intro hr
    cases (engineStep_of_raises hr).symm.trans h
    rfl

/-- Settles O7: the codes that are raised, each exactly on its cause. -/
theorem everyCodeHasItsCause : Obligations.EveryCodeHasItsCause := by
  intro s t h
  have hcode : t.busy = false ∧ t.err.toNat ≤ 4 := by
    rcases engineStep_next h with ⟨u, rfl⟩ | ⟨e, hr, rfl⟩
    · exact ⟨rfl, Nat.zero_le 4⟩
    · exact ⟨rfl, State.bits_le_of_raises hr⟩
  obtain ⟨hbusy, hle⟩ := hcode
  exact ⟨hbusy, hle, engineStep_err_iff h (e := .illegalCmd) nofun, engineStep_err_iff h (e := .noKey) nofun,
    engineStep_err_iff h (e := .badLength) nofun, engineStep_err_iff h (e := .authFail) nofun⟩

/-- Settles O8: a completion with another code than OK is a raise. -/
theorem errorCompletionHasNoOtherEffect : Obligations.ErrorCompletionHasNoOtherEffect := by
  intro s t h herr
  rcases engineStep_next h with ⟨u, rfl⟩ | ⟨e, -, rfl⟩
  · exact absurd rfl herr
  · rfl

/-- Settles O9: each clause is the cause of its code, so the engine step raises it. -/
theorem errorPriority : Obligations.ErrorPriority := by
  intro s
  have hraise : ∀ e, s.raises e → ∃ t, engineStep s = .next t ∧ t.err = e.bits :=
    fun e hr => ⟨_, engineStep_of_raises hr, rfl⟩
  refine ⟨fun hill => hraise .illegalCmd hill, fun hlo hhi hk => hraise .noKey ⟨hlo, hhi, hk⟩,
    fun hlo hhi hk hl => hraise .badLength ⟨?_, hk, hl⟩,
    fun c hcmd hk hl hc ht => hraise .authFail ⟨BitVec.eq_of_toNat_eq hcmd, hk, hl, c, hc, ht⟩⟩
  have hword : s.cmd.toNat = (encode .sealMsg).toNat ∨ s.cmd.toNat = (encode .openMsg).toNat := by
    change s.cmd.toNat = 0x04 ∨ s.cmd.toNat = 0x05
    omega
  exact hword.imp BitVec.eq_of_toNat_eq BitVec.eq_of_toNat_eq

end Sys2Proof.Machine
end

section
/-! The overrun flag (spec/60_exceptions.md R94): which turn can set it and which can clear it. -/

namespace Sys2Proof.Machine

/-- A write that sets OVR is dropped because BUSY = 1, and changes nothing else (R38). -/
theorem writeTarget_sets_ovr {p : Target} {v : Word} {s : State} (ho : s.ovr = false)
    (ho' : (writeTarget p v s).ovr = true) : s.busy = true ∧ writeTarget p v s = { s with ovr := true } := by
  rcases writeTarget_cases p v s with ⟨-, h⟩ | ⟨-, h⟩ | ⟨-, hb, h⟩ | ⟨-, -, h⟩ | ⟨-, -, l, k, n, d, g, m, -, h⟩
  case inr.inr.inl => exact ⟨hb, h⟩
  all_goals simp [h, ho] at ho'

/-- A write that clears OVR is a write of STATUS with bit 2 set (R17). -/
theorem writeTarget_clears_ovr {p : Target} {v : Word} {s : State} (ho : s.ovr = true)
    (ho' : (writeTarget p v s).ovr = false) : p = .status ∧ v.getLsbD 2 = true := by
  rcases writeTarget_cases p v s with ⟨hp, h⟩ | ⟨-, h⟩ | ⟨-, -, h⟩ | ⟨-, -, h⟩ | ⟨-, -, l, k, n, d, g, m, -, h⟩
  case inl =>
    refine ⟨hp, ?_⟩
    simpa [h, ho] using ho'
  all_goals simp [h, ho] at ho'

theorem hostStep_sets_ovr {x : HostTx} {s t : State} (h : hostStep x s = .next t) (ho : s.ovr = false)
    (ho' : t.ovr = true) : s.busy = true ∧ x.dir = .wr ∧ t = answer .okay { s with ovr := true } := by
  rcases hostStep_next h with ⟨r, rfl⟩ | ⟨-, hd, p, -, rfl⟩
  · simp [ho] at ho'
  · obtain ⟨hb, hw⟩ := writeTarget_sets_ovr ho ho'
    exact ⟨hb, hd, congrArg (answer .okay) hw⟩

theorem hostStep_clears_ovr {x : HostTx} {s t : State} (h : hostStep x s = .next t) (ho : s.ovr = true)
    (ho' : t.ovr = false) : x.dir = .wr ∧ x.size = 2 ∧ x.off = 0x004 ∧ x.wdata.getLsbD 2 = true := by
  rcases hostStep_next h with ⟨r, rfl⟩ | ⟨⟨hsize, halign⟩, hd, p, hp, rfl⟩
  · simp [ho] at ho'
  · obtain ⟨rfl, hbit⟩ := writeTarget_clears_ovr ho ho'
    exact ⟨hd, hsize, off_of_targetAt_status halign hp, hbit⟩

/-- No command changes OVR. -/
theorem engineTurn_ovr {s t : State} (h : engineTurn s = .next t) : t.ovr = s.ovr := by
  rcases engineTurn_cases s with ⟨-, hx⟩ | ⟨-, r, -, hx⟩ | ⟨-, i, -, hx⟩
  · cases hx.symm.trans h
    rfl
  · cases hx.symm.trans h
    rfl
  · obtain ⟨e, rk, kv, d, m, g, rfl, -⟩ := exec_next_shape (hx.symm.trans h)
    rfl

/-- Settles O53, by whose turn the step is. -/
theorem overrunChanges : Obligations.OverrunChanges := by
  intro s t h
  rcases turn_cases s with he | ⟨rest, hin⟩ | ⟨x, rest, hin⟩
  · rw [step_engineNext he] at h
    have hovr : t.ovr = s.ovr := (engineTurn_ovr h).trans (withInputs_ovr _ s)
    exact ⟨fun ho ho' => by simp [hovr, ho] at ho', fun ho ho' => by simp [hovr, ho] at ho'⟩
  · rw [step_reset hin] at h
    cases h
    exact ⟨fun _ ho' => by simp at ho', fun _ _ => .inr ⟨rest, hin⟩⟩
  · rw [step_host hin] at h
    refine ⟨fun ho ho' => ?_, fun ho ho' => .inl ⟨x, rest, hin, hostStep_clears_ovr h ho ho'⟩⟩
    obtain ⟨hb, hd, rfl⟩ := hostStep_sets_ovr h ho ho'
    exact ⟨hb, x, rest, hin, hd, rfl⟩

end Sys2Proof.Machine
end

section
/-! Turns of the engine and of reset, and the BUSY window (spec/70_reset_and_hazards.md R103, R108 to R113): a busy core
keeps the operands of its pending command, and the engine's turn then executes it. -/

namespace Sys2Proof.Machine

/-! ### Single turns -/

/-- Settles O4: the engine's turn of a busy core is the engine step, which dispatches on the decoded word. -/
theorem stepRunsTheDecodedCommand : Obligations.StepRunsTheDecodedCommand := by
  intro s he hb
  have hstep : step s = engineStep (withInputs s.laterInputs s) := by
    rw [step_engineNext he, engineTurn_busy (s := withInputs s.laterInputs s) hb]
  exact ⟨hstep, fun i hd => hstep.trans (engineStep_ok (s := withInputs s.laterInputs s) hd)⟩

/-- Settles O50: the reset step takes every field from the reset state but the parameters, the turns and the answers. -/
theorem resetStep_values : Obligations.ResetStep := by
  intro s rest hin
  refine ⟨_, step_reset hin, rfl, rfl, rfl, rfl, rfl, rfl, rfl, rfl, rfl, rfl, rfl, fun i hi => ?_, fun _ => rfl,
    rfl, rfl, rfl⟩
  simp

/-! ### The BUSY window -/

/-- While BUSY = 1 a write reaches OVR only (R38). -/
theorem writeTarget_of_busy {s : State} (hb : s.busy = true) (p : Target) (v : Word) :
    ∃ o, writeTarget p v s = { s with ovr := o } := by
  rcases writeTarget_cases p v s with ⟨-, h⟩ | ⟨-, h⟩ | ⟨-, -, h⟩ | ⟨hi, -⟩ | ⟨hi, -⟩
  · exact ⟨_, h⟩
  · exact ⟨s.ovr, h⟩
  · exact ⟨true, h⟩
  · simp [hb] at hi
  · simp [hb] at hi

/-- While BUSY = 1 a host step goes on, and changes OVR and the answers only (R109, R111). -/
theorem hostStep_of_busy {s : State} (hb : s.busy = true) (x : HostTx) :
    ∃ o as, hostStep x s = .next { s with ovr := o, answers := as } := by
  rcases hostStep_cases x s with ⟨-, hx⟩ | ⟨-, p, -, ⟨-, hx⟩ | ⟨-, v, -, hx⟩ | ⟨-, hv, -⟩⟩
  · exact ⟨s.ovr, _, hx⟩
  · obtain ⟨o, ho⟩ := writeTarget_of_busy hb p x.wdata
    rw [ho] at hx
    exact ⟨o, _, hx⟩
  · exact ⟨s.ovr, _, hx⟩
  · obtain ⟨w, -, hi, -⟩ := readTarget_eq_none.1 hv
    simp [hb] at hi

/-- The snapshot: host transactions on a busy core leave every field but OVR, the answers and the turns to come. -/
theorem runFor_hosts_of_busy {xs : List HostTx} {s : State} {later : List Input} (hb : s.busy = true)
    (hin : s.inputs = xs.map Input.host ++ later) :
    ∃ o as, runFor xs.length s = .next { s with inputs := later, ovr := o, answers := as } := by
  induction xs generalizing s with
  | nil =>
    obtain rfl : s.inputs = later := hin
    exact ⟨s.ovr, s.answers, rfl⟩
  | cons x xs ih =>
    obtain ⟨o, as, hx⟩ := hostStep_of_busy (s := withInputs (xs.map Input.host ++ later) s) hb x
    obtain ⟨o', as', hrun⟩ := ih (s := { withInputs (xs.map Input.host ++ later) s with ovr := o, answers := as }) hb rfl
    exact ⟨o', as', (runFor_next ((step_host hin).trans hx)).trans hrun⟩

/-- Settles O48: the transactions keep the snapshot, and the engine's turn after them runs the command in CMD. -/
theorem busyWindowKeepsTheOperandSnapshot : Obligations.BusyWindowKeepsTheOperandSnapshot := by
  intro s xs later hb hin hlater
  obtain ⟨o, as, hrun⟩ := runFor_hosts_of_busy hb hin
  refine ⟨o, as, hrun, ?_⟩
  obtain ⟨hengine, hexec⟩ := stepRunsTheDecodedCommand { s with inputs := later, ovr := o, answers := as } hlater hb
  rw [runFor_add hrun, runFor_one]
  cases hd : decode s.cmd with
  | ok i => exact hexec i hd
  | error r => exact hengine.trans (engineStep_error hd)

end Sys2Proof.Machine
end
